-- ==== Sys2Proof/Word.lean ====
section
/-! DEFINITION. The words of the machine (spec/00_scope.md R4, R5): every value is unsigned. -/

namespace Sys2Proof

/-- A byte: a memory element, a general register, a timer, an 8-bit immediate `kk`. -/
abbrev Byte := BitVec 8

/-- Sixteen bits: an instruction, `I`, `PC`, a return address. -/
abbrev Word := BitVec 16

/-- A 4-bit field of an opcode. -/
abbrev Nibble := BitVec 4

/-- A 12-bit address immediate `nnn`. -/
abbrev Addr12 := BitVec 12

/-- A framebuffer cell: 0 is off, any other value is lit with that RGB (R28). -/
abbrev Pixel := BitVec 24

/-- The number of a general register, of a stack slot or of a key: 0..15. -/
abbrev RegIdx := Fin 16

/-- The index of a framebuffer cell, row-major: 0..2047 (R28). -/
abbrev CellIdx := Fin 2048

end Sys2Proof
end

