-- ==== Sys2Proof/Syntax.lean ====
section
/-! DEFINITION. The instructions: one constructor per row of spec/opcode_table.json (spec/30_encoding.md R75), the
fallback row UNK among them. -/

namespace Sys2Proof

/-- An instruction. `x`, `y` are register numbers, `kk` an 8-bit immediate, `nnn` a 12-bit address, `n` the low
nibble. The `n` of `seReg` and `sneReg` is decoded and ignored (R78); it stands here so that no bit of a word is
dropped. -/
inductive Instr where
  /-- `00E0` CLS (R100) -/
  | cls
  /-- `00EE` RET (R101) -/
  | ret
  /-- `0000` HALT (R102) -/
  | halt
  /-- `1nnn` JP nnn (R110) -/
  | jp (nnn : Addr12)
  /-- `2nnn` CALL nnn (R111) -/
  | call (nnn : Addr12)
  /-- `3xkk` SE Vx, kk (R112) -/
  | seImm (x : RegIdx) (kk : Byte)
  /-- `4xkk` SNE Vx, kk (R113) -/
  | sneImm (x : RegIdx) (kk : Byte)
  /-- `5xyn` SE Vx, Vy (R114), `n` ignored -/
  | seReg (x y : RegIdx) (n : Nibble)
  /-- `6xkk` LD Vx, kk (R120) -/
  | ldImm (x : RegIdx) (kk : Byte)
  /-- `7xkk` ADD Vx, kk (R121) -/
  | addImm (x : RegIdx) (kk : Byte)
  /-- `8xy0` LD Vx, Vy (R131) -/
  | ldReg (x y : RegIdx)
  /-- `8xy1` OR Vx, Vy (R132) -/
  | orReg (x y : RegIdx)
  /-- `8xy2` AND Vx, Vy (R133) -/
  | andReg (x y : RegIdx)
  /-- `8xy3` XOR Vx, Vy (R134) -/
  | xorReg (x y : RegIdx)
  /-- `8xy4` ADD Vx, Vy (R135) -/
  | addReg (x y : RegIdx)
  /-- `8xy5` SUB Vx, Vy (R136) -/
  | subReg (x y : RegIdx)
  /-- `8xy6` SHR Vx, Vy (R137) -/
  | shrReg (x y : RegIdx)
  /-- `8xy7` SUBN Vx, Vy (R138) -/
  | subnReg (x y : RegIdx)
  /-- `8xyE` SHL Vx, Vy (R139) -/
  | shlReg (x y : RegIdx)
  /-- `9xyn` SNE Vx, Vy (R115), `n` ignored -/
  | sneReg (x y : RegIdx) (n : Nibble)
  /-- `Annn` LD I, nnn (R122) -/
  | ldI (nnn : Addr12)
  /-- `Bnnn` JP V0, nnn (R116) -/
  | jpV0 (nnn : Addr12)
  /-- `Cxkk` RND Vx, kk (R123) -/
  | rnd (x : RegIdx) (kk : Byte)
  /-- `Dxyn` DRW Vx, Vy, n (R150) -/
  | drw (x y : RegIdx) (n : Nibble)
  /-- `Ex9E` SKP Vx (R160) -/
  | skp (x : RegIdx)
  /-- `ExA1` SKNP Vx (R161) -/
  | sknp (x : RegIdx)
  /-- `Fx07` LD Vx, DT (R170) -/
  | ldVxDt (x : RegIdx)
  /-- `Fx0A` LD Vx, K (R162) -/
  | ldVxK (x : RegIdx)
  /-- `Fx15` LD DT, Vx (R171) -/
  | ldDt (x : RegIdx)
  /-- `Fx18` LD ST, Vx (R172) -/
  | ldSt (x : RegIdx)
  /-- `Fx1E` ADD I, Vx (R173) -/
  | addI (x : RegIdx)
  /-- `Fx29` LD F, Vx (R174) -/
  | ldF (x : RegIdx)
  /-- `Fx33` LD B, Vx (R175) -/
  | ldB (x : RegIdx)
  /-- `Fx55` LD [I], Vx (R176): stores V0..Vx -/
  | storeRegs (x : RegIdx)
  /-- `Fx65` LD Vx, [I] (R177): loads V0..Vx -/
  | loadRegs (x : RegIdx)
  /-- any other word `w` (R77, R103) -/
  | unk (w : Word)
  deriving DecidableEq, Repr

end Sys2Proof
end

