-- ==== Sys2Proof/WellFormed.lean ====
section
/-! DEFINITION. Which instructions are the decoding of a word. Every field of every instruction is as wide as its
field in the word, so the one thing to check is that UNK carries an unrecognised word: one check per family that has
such words (spec/30_encoding.md R77). -/

namespace Sys2Proof

/-- Family 0: every `0nnn` but 0x0000, 0x00E0, 0x00EE (R77, R79). -/
def unrecognised0 (w : Word) : Bool := w != 0x0000 && w != 0x00E0 && w != 0x00EE

/-- Family 8: `8xyn` with n in 8, 9, A, B, C, D, F (R77). -/
def unrecognised8 (w : Word) : Bool :=
  let n := w.extractLsb' 0 4
  n == 0x8#4 || n == 0x9#4 || n == 0xA#4 || n == 0xB#4 || n == 0xC#4 || n == 0xD#4 || n == 0xF#4

/-- Family E: `Exkk` with kk not in 9E, A1 (R77). -/
def unrecognisedE (w : Word) : Bool :=
  let kk := w.extractLsb' 0 8
  kk != 0x9E#8 && kk != 0xA1#8

/-- Family F: `Fxkk` with kk not in 07, 0A, 15, 18, 1E, 29, 33, 55, 65 (R77). -/
def unrecognisedF (w : Word) : Bool :=
  let kk := w.extractLsb' 0 8
  kk != 0x07#8 && kk != 0x0A#8 && kk != 0x15#8 && kk != 0x18#8 && kk != 0x1E#8 && kk != 0x29#8 &&
    kk != 0x33#8 && kk != 0x55#8 && kk != 0x65#8

/-- The unrecognised words are exactly those of R77's table: none outside families 0, 8, E, F. -/
def isUnrecognised (w : Word) : Bool :=
  let op := w.extractLsb' 12 4
  (op == 0x0#4 && unrecognised0 w) || (op == 0x8#4 && unrecognised8 w) ||
    (op == 0xE#4 && unrecognisedE w) || (op == 0xF#4 && unrecognisedF w)

/-- A well-formed instruction: the decoding of some word. -/
def Instr.wf : Instr → Bool
  | .unk w => isUnrecognised w
  | .cls | .ret | .halt => true
  | .jp _ | .call _ | .ldI _ | .jpV0 _ => true
  | .seImm _ _ | .sneImm _ _ | .ldImm _ _ | .addImm _ _ | .rnd _ _ => true
  | .seReg _ _ _ | .sneReg _ _ _ | .drw _ _ _ => true
  | .ldReg _ _ | .orReg _ _ | .andReg _ _ | .xorReg _ _ | .addReg _ _ | .subReg _ _ => true
  | .shrReg _ _ | .subnReg _ _ | .shlReg _ _ => true
  | .skp _ | .sknp _ | .ldVxDt _ | .ldVxK _ | .ldDt _ | .ldSt _ | .addI _ | .ldF _ => true
  | .ldB _ | .storeRegs _ | .loadRegs _ => true

end Sys2Proof
end

