-- ==== Sys2Proof/Decode.lean ====
section
/-! DEFINITION. The decoder (spec/30_encoding.md R70 to R80), total on every word and on any list of bytes, and
after it the encoder, written from the patterns of R75. -/

namespace Sys2Proof

/-! ## Fields of a word (R71) -/

/-- `op[15:12]`, the family. -/
def fieldOp (w : Word) : Nibble := w.extractLsb' 12 4

/-- `x = op[11:8]`. -/
def fieldX (w : Word) : RegIdx := (w.extractLsb' 8 4).toFin

/-- `y = op[7:4]`. -/
def fieldY (w : Word) : RegIdx := (w.extractLsb' 4 4).toFin

/-- `n = op[3:0]`. -/
def fieldN (w : Word) : Nibble := w.extractLsb' 0 4

/-- `kk = op[7:0]`. -/
def fieldKK (w : Word) : Byte := w.extractLsb' 0 8

/-- `nnn = op[11:0]`. -/
def fieldNNN (w : Word) : Addr12 := w.extractLsb' 0 12

/-! ## Decode (R74) -/

/-- Family 0 is matched on the whole word (R79; the spec's decision D11, UNVERIFIED, unsafe: log 11). -/
def decode0 (w : Word) : Instr :=
  if w = 0x00E0#16 then .cls
  else if w = 0x00EE#16 then .ret
  else if w = 0x0000#16 then .halt
  else .unk w

/-- Family 8 dispatches on `n` (R74). -/
def decode8 (w : Word) : Instr :=
  let x := fieldX w
  let y := fieldY w
  match (fieldN w).toNat with
  | 0x0 => .ldReg x y
  | 0x1 => .orReg x y
  | 0x2 => .andReg x y
  | 0x3 => .xorReg x y
  | 0x4 => .addReg x y
  | 0x5 => .subReg x y
  | 0x6 => .shrReg x y
  | 0x7 => .subnReg x y
  | 0xE => .shlReg x y
  | _ => .unk w

/-- Family E dispatches on `kk` (R74). -/
def decodeE (w : Word) : Instr :=
  if fieldKK w = 0x9E#8 then .skp (fieldX w)
  else if fieldKK w = 0xA1#8 then .sknp (fieldX w)
  else .unk w

/-- Family F dispatches on `kk` (R74). -/
def decodeF (w : Word) : Instr :=
  let x := fieldX w
  let kk := fieldKK w
  if kk = 0x07#8 then .ldVxDt x
  else if kk = 0x0A#8 then .ldVxK x
  else if kk = 0x15#8 then .ldDt x
  else if kk = 0x18#8 then .ldSt x
  else if kk = 0x1E#8 then .addI x
  else if kk = 0x29#8 then .ldF x
  else if kk = 0x33#8 then .ldB x
  else if kk = 0x55#8 then .storeRegs x
  else if kk = 0x65#8 then .loadRegs x
  else .unk w

/-- Primary dispatch on the top nibble (R74). Every one of the 65536 words decodes (R77). Families 5 and 9 do not
examine `n` (R78; the spec's decision D10, UNVERIFIED, unsafe: log 10). -/
def decode (w : Word) : Instr :=
  match (fieldOp w).toNat with
  | 0x0 => decode0 w
  | 0x1 => .jp (fieldNNN w)
  | 0x2 => .call (fieldNNN w)
  | 0x3 => .seImm (fieldX w) (fieldKK w)
  | 0x4 => .sneImm (fieldX w) (fieldKK w)
  | 0x5 => .seReg (fieldX w) (fieldY w) (fieldN w)
  | 0x6 => .ldImm (fieldX w) (fieldKK w)
  | 0x7 => .addImm (fieldX w) (fieldKK w)
  | 0x8 => decode8 w
  | 0x9 => .sneReg (fieldX w) (fieldY w) (fieldN w)
  | 0xA => .ldI (fieldNNN w)
  | 0xB => .jpV0 (fieldNNN w)
  | 0xC => .rnd (fieldX w) (fieldKK w)
  | 0xD => .drw (fieldX w) (fieldY w) (fieldN w)
  | 0xE => decodeE w
  | _ => decodeF w

/-! ## The opcode map as masks (R75) -/

/-- A row of the opcode map: a word `w` is the row's instruction when `w & mask = pattern`, and then the instruction
is `instr w` (R75). -/
structure TableRow where
  mask    : Word
  pattern : Word
  instr   : Word → Instr

/-- Rows 1 to 20 of R75's table, families 0 to 9. -/
def tableRowsLow : List TableRow :=
  [⟨0xFFFF, 0x00E0, fun _ => .cls⟩, ⟨0xFFFF, 0x00EE, fun _ => .ret⟩, ⟨0xFFFF, 0x0000, fun _ => .halt⟩] ++
  [⟨0xF000, 0x1000, fun w => .jp (fieldNNN w)⟩, ⟨0xF000, 0x2000, fun w => .call (fieldNNN w)⟩,
   ⟨0xF000, 0x3000, fun w => .seImm (fieldX w) (fieldKK w)⟩, ⟨0xF000, 0x4000, fun w => .sneImm (fieldX w) (fieldKK w)⟩,
   ⟨0xF000, 0x5000, fun w => .seReg (fieldX w) (fieldY w) (fieldN w)⟩] ++
  [⟨0xF000, 0x6000, fun w => .ldImm (fieldX w) (fieldKK w)⟩, ⟨0xF000, 0x7000, fun w => .addImm (fieldX w) (fieldKK w)⟩] ++
  [⟨0xF00F, 0x8000, fun w => .ldReg (fieldX w) (fieldY w)⟩, ⟨0xF00F, 0x8001, fun w => .orReg (fieldX w) (fieldY w)⟩,
   ⟨0xF00F, 0x8002, fun w => .andReg (fieldX w) (fieldY w)⟩, ⟨0xF00F, 0x8003, fun w => .xorReg (fieldX w) (fieldY w)⟩,
   ⟨0xF00F, 0x8004, fun w => .addReg (fieldX w) (fieldY w)⟩, ⟨0xF00F, 0x8005, fun w => .subReg (fieldX w) (fieldY w)⟩,
   ⟨0xF00F, 0x8006, fun w => .shrReg (fieldX w) (fieldY w)⟩, ⟨0xF00F, 0x8007, fun w => .subnReg (fieldX w) (fieldY w)⟩,
   ⟨0xF00F, 0x800E, fun w => .shlReg (fieldX w) (fieldY w)⟩] ++
  [⟨0xF000, 0x9000, fun w => .sneReg (fieldX w) (fieldY w) (fieldN w)⟩]

/-- Rows 21 to 35 of R75's table, families A to F. -/
def tableRowsHigh : List TableRow :=
  [⟨0xF000, 0xA000, fun w => .ldI (fieldNNN w)⟩, ⟨0xF000, 0xB000, fun w => .jpV0 (fieldNNN w)⟩,
   ⟨0xF000, 0xC000, fun w => .rnd (fieldX w) (fieldKK w)⟩,
   ⟨0xF000, 0xD000, fun w => .drw (fieldX w) (fieldY w) (fieldN w)⟩] ++
  [⟨0xF0FF, 0xE09E, fun w => .skp (fieldX w)⟩, ⟨0xF0FF, 0xE0A1, fun w => .sknp (fieldX w)⟩] ++
  [⟨0xF0FF, 0xF007, fun w => .ldVxDt (fieldX w)⟩, ⟨0xF0FF, 0xF00A, fun w => .ldVxK (fieldX w)⟩,
   ⟨0xF0FF, 0xF015, fun w => .ldDt (fieldX w)⟩, ⟨0xF0FF, 0xF018, fun w => .ldSt (fieldX w)⟩,
   ⟨0xF0FF, 0xF01E, fun w => .addI (fieldX w)⟩, ⟨0xF0FF, 0xF029, fun w => .ldF (fieldX w)⟩,
   ⟨0xF0FF, 0xF033, fun w => .ldB (fieldX w)⟩, ⟨0xF0FF, 0xF055, fun w => .storeRegs (fieldX w)⟩,
   ⟨0xF0FF, 0xF065, fun w => .loadRegs (fieldX w)⟩]

/-- The 35 instruction rows of R75; the 36th, UNK, is the fallback (R76). -/
def tableRows : List TableRow := tableRowsLow ++ tableRowsHigh

/-! ## Decoding bytes -/

/-- Why a list of bytes is no instruction: there is one reason, since every word decodes (R77). -/
inductive DecodeError where
  /-- fewer than two bytes -/
  | truncated
  deriving DecidableEq, Repr

/-- The big-endian word of two bytes: the byte at the lower address holds `op[15:8]` (R53). -/
def wordOfBytes (hi lo : Byte) : Word := hi ++ lo

/-- The first instruction of a list of bytes, with the rest of the list; every instruction is two bytes (R70). -/
def decodeBytes : List Byte → Except DecodeError (Instr × List Byte)
  | hi :: lo :: rest => .ok (decode (wordOfBytes hi lo), rest)
  | _ => .error .truncated

/-! ## Encode (R75) -/

/-- A register number as a field. -/
def regBits (x : RegIdx) : Nibble := BitVec.ofFin x

/-- Formats XY and XYN of R73: four nibbles. -/
def packXYN (op : Nibble) (x y : RegIdx) (n : Nibble) : Word := op ++ regBits x ++ regBits y ++ n

/-- Formats XK and XF of R73: a nibble, a register and a byte. -/
def packXK (op : Nibble) (x : RegIdx) (kk : Byte) : Word := op ++ regBits x ++ kk

/-- Format A of R73: a nibble and a 12-bit address. -/
def packA (op : Nibble) (nnn : Addr12) : Word := op ++ nnn

/-- The word of an instruction, from the patterns of R75. -/
def encode : Instr → Word
  | .cls => 0x00E0
  | .ret => 0x00EE
  | .halt => 0x0000
  | .jp nnn => packA 0x1 nnn
  | .call nnn => packA 0x2 nnn
  | .seImm x kk => packXK 0x3 x kk
  | .sneImm x kk => packXK 0x4 x kk
  | .seReg x y n => packXYN 0x5 x y n
  | .ldImm x kk => packXK 0x6 x kk
  | .addImm x kk => packXK 0x7 x kk
  | .ldReg x y => packXYN 0x8 x y 0x0
  | .orReg x y => packXYN 0x8 x y 0x1
  | .andReg x y => packXYN 0x8 x y 0x2
  | .xorReg x y => packXYN 0x8 x y 0x3
  | .addReg x y => packXYN 0x8 x y 0x4
  | .subReg x y => packXYN 0x8 x y 0x5
  | .shrReg x y => packXYN 0x8 x y 0x6
  | .subnReg x y => packXYN 0x8 x y 0x7
  | .shlReg x y => packXYN 0x8 x y 0xE
  | .sneReg x y n => packXYN 0x9 x y n
  | .ldI nnn => packA 0xA nnn
  | .jpV0 nnn => packA 0xB nnn
  | .rnd x kk => packXK 0xC x kk
  | .drw x y n => packXYN 0xD x y n
  | .skp x => packXK 0xE x 0x9E
  | .sknp x => packXK 0xE x 0xA1
  | .ldVxDt x => packXK 0xF x 0x07
  | .ldVxK x => packXK 0xF x 0x0A
  | .ldDt x => packXK 0xF x 0x15
  | .ldSt x => packXK 0xF x 0x18
  | .addI x => packXK 0xF x 0x1E
  | .ldF x => packXK 0xF x 0x29
  | .ldB x => packXK 0xF x 0x33
  | .storeRegs x => packXK 0xF x 0x55
  | .loadRegs x => packXK 0xF x 0x65
  | .unk w => w

/-- The two bytes of a word, the first at the lower address (R53). -/
def wordBytes (w : Word) : List Byte := [w.extractLsb' 8 8, w.extractLsb' 0 8]

/-- The instruction the decoder reads from an instruction whose bits, numbered as spec/opcode_table.json numbers
them, are `w`: one 16-bit word, laid out big-endian. Bits above `nbits` are 0; no instruction is longer than 16
bits. -/
def decodeTableWord (nbits w : Nat) : Option Instr :=
  match decodeBytes (wordBytes (BitVec.ofNat 16 (w % 2 ^ nbits))) with
  | .ok (i, _) => some i
  | .error _ => none

end Sys2Proof
end

