-- ==== Sys2Proof/Config.lean ====
section
/-! DEFINITION. What the spec leaves OPEN (spec/00_scope.md R4): the parameters `FONT` and `DEFAULT_FG`, carried in
State so that a statement about every state holds for every value of them, with the values `State.reset` takes; and
the free value of `Cxkk`. -/

namespace Sys2Proof.Config

/-- The OPEN parameters of R4. `OVERLAY_MAX` is open too: the overlay table is an unbounded list. -/
structure Params where
  /-- `FONT`, the 80 bytes at 0x000..0x04F after reset (R52). -/
  font      : Vector Byte 80
  /-- `DEFAULT_FG`, the draw colour while the overlay is disabled (R151); required nonzero. -/
  defaultFg : Pixel
  deriving DecidableEq, Repr

/-- Glyphs 0 to 7 of the default `FONT` (R52).
PRESUMED (the spec marks the table as general knowledge), unsafe for a claim that leans on glyph shapes: log 2. -/
def fontLow : List Byte :=
  [0xF0, 0x90, 0x90, 0x90, 0xF0] ++ [0x20, 0x60, 0x20, 0x20, 0x70] ++
  [0xF0, 0x10, 0xF0, 0x80, 0xF0] ++ [0xF0, 0x10, 0xF0, 0x10, 0xF0] ++
  [0x90, 0x90, 0xF0, 0x10, 0x10] ++ [0xF0, 0x80, 0xF0, 0x10, 0xF0] ++
  [0xF0, 0x80, 0xF0, 0x90, 0xF0] ++ [0xF0, 0x10, 0x20, 0x40, 0x40]

/-- Glyphs 8 to F of the default `FONT` (R52). PRESUMED, unsafe: log 2. -/
def fontHigh : List Byte :=
  [0xF0, 0x90, 0xF0, 0x90, 0xF0] ++ [0xF0, 0x90, 0xF0, 0x10, 0xF0] ++
  [0xF0, 0x90, 0xF0, 0x90, 0x90] ++ [0xE0, 0x90, 0xE0, 0x90, 0xE0] ++
  [0xF0, 0x80, 0x80, 0x80, 0xF0] ++ [0xE0, 0x90, 0x90, 0x90, 0xE0] ++
  [0xF0, 0x80, 0xF0, 0x80, 0xF0] ++ [0xF0, 0x80, 0xF0, 0x80, 0x80]

/-- The default `FONT` (R52). PRESUMED, unsafe: log 2. -/
def font : Vector Byte 80 := ⟨⟨fontLow ++ fontHigh⟩, by decide⟩

/-- The suggested `DEFAULT_FG`, white (R4). DESIGN CHOICE, unsafe for a claim that leans on it: log 3. -/
def defaultFg : Pixel := 0xFFFFFF

/-- The parameters `State.reset` takes. -/
def params : Params := { font := font, defaultFg := defaultFg }

/-- The random bytes of `Cxkk` (R123, decision D21): the k-th draw is any byte. No body: a claim holds for every
draw. DESIGN CHOICE of form, safe: log 1. -/
opaque randByte : Nat → Byte

end Sys2Proof.Config
end

