-- ==== Sys2Proof/Machine/State.lean ====
section
/-! DEFINITION. The state of the machine (spec/10_state.md R20 to R30), why a step stops, and the state after reset
(R32, R250). -/

namespace Sys2Proof.Machine

/-- Why a step stops with a fault. Both are result codes of R202; a faulting step changes no state (R224), and the
faulted state is never final (R230, decision D23). -/
inductive Fault where
  /-- An address above 4095 would have been used: raised by the fetch (R220) and by Dxyn, Fx33, Fx55, Fx65 (R221).
  Safe: the machine stops. -/
  | outOfBounds
  /-- A call with a full stack (R222) or a return with an empty one (R223): raised by 2nnn and 00EE.
  Safe: the machine stops. -/
  | stackFault
  deriving DecidableEq, Repr

/-- Why the model has no move. -/
inductive Refusal where
  /-- An instruction that has no meaning yet: raised by exec's refused arms. Safe. -/
  | notModelled (mnemonic : String)
  /-- A second `load` ("reloading is undefined - not supported", R212, R252, decision D26): raised by the `load`
  transaction, never by a step. Safe. -/
  | reloadNotSupported
  deriving DecidableEq, Repr

/-- The result codes of a step (R202). -/
inductive StepResult where
  /-- `Continue` -/
  | cont
  /-- `Halt` -/
  | halt
  /-- `OutOfBounds` -/
  | outOfBounds
  /-- `StackFault` -/
  | stackFault
  deriving DecidableEq, Repr

/-- The outputs of a step (R201): its result and the frame dirty flag (R205). -/
structure StepOut where
  result : StepResult
  dirty  : Bool
  deriving DecidableEq, Repr

/-- A colour overlay record (R29). -/
structure OverlayRec where
  addr : Word
  r    : Byte
  g    : Byte
  b    : Byte
  deriving DecidableEq, Repr

/-- Memory: the bytes that differ from the reset contents, addresses strictly rising (R30, R50). -/
abbrev Memory := List Host.Cell

/-- The framebuffer `FB[0..2047]`, row-major, cell `FB[r*64 + c]` at row r and column c (R28): the lit cells with their
colours, indices strictly rising; a cell that is not listed is 0, off. -/
abbrev Framebuffer := List (Nat × Pixel)

/-- The machine. The first eleven fields are the spec's state; `params` holds its OPEN parameters (R4); the last
three are the model's own. -/
structure State where
  /-- `V[0..15]` (R20); `V[15]` is VF (R21) -/
  v      : Vector Byte 16
  /-- the index register `I` (R22) -/
  i      : Word
  /-- the program counter `PC` (R23) -/
  pc     : Word
  /-- the stack pointer `SP`, 0..16: the number of entries in use (R24) -/
  sp     : Fin 17
  /-- the call stack `STACK[0..15]` (R24) -/
  stack  : Vector Word 16
  /-- the delay timer `DT` (R25) -/
  dt     : Byte
  /-- the sound timer `ST` (R26) -/
  st     : Byte
  /-- the key flags `KEY[0..15]` (R27) -/
  key    : Vector Bool 16
  /-- the framebuffer `FB[0..2047]` (R28) -/
  fb     : Framebuffer
  /-- the colour overlay table `OV` (R29) -/
  ov     : List OverlayRec
  /-- the memory `MEM[0..4095]` (R30) -/
  mem    : Memory
  /-- the OPEN parameters `FONT` and `DEFAULT_FG` (R4), written by nothing -/
  params : Config.Params
  /-- MODEL'S OWN: how many random bytes have been drawn (R123). DESIGN CHOICE, safe: log 1. -/
  draws  : Nat
  /-- MODEL'S OWN: the outputs of the last step (R201); no rule reads them. DESIGN CHOICE, safe: log 4. -/
  out    : StepOut
  /-- MODEL'S OWN: whether a `load` has succeeded (R212). DESIGN CHOICE, safe: log 6. -/
  loaded : Bool
  deriving DecidableEq, Repr

/-- The state after reset of a machine with parameters `p` (R32, R250): memory lists nothing, so it reads as `FONT`
followed by zeros. The values of `draws`, `out` and `loaded` are DESIGN CHOICES: logs 1, 4, 6. -/
def State.resetWith (p : Config.Params) : State where
  v      := Vector.replicate 16 0
  i      := 0
  pc     := 0
  sp     := 0
  stack  := Vector.replicate 16 0
  dt     := 0
  st     := 0
  key    := Vector.replicate 16 false
  fb     := []
  ov     := []
  mem    := []
  params := p
  draws  := 0
  out    := { result := .cont, dirty := false }
  loaded := false

/-- The state after reset (R250), with the default parameters (logs 2, 3). -/
def State.reset : State := State.resetWith Config.params

end Sys2Proof.Machine
end

