-- ==== Sys2Proof/Machine/Ops.lean ====
section
/-! DEFINITION. The operations every meaning is made of: memory, registers, the call stack, fetching, ending an
instruction, and raising a fault. -/

namespace Sys2Proof.Machine

/-! ## Sparse tables: memory and the framebuffer

A table of values by number, where a number that is not listed has the value `d` gives it. -/

/-- The value at a number. -/
def Sparse.read {α : Type} (d : Nat → α) (a : Nat) : List (Nat × α) → α
  | [] => d a
  | (k, c) :: m => if k = a then c else Sparse.read d a m

/-- The table with one value written, kept in its canonical form: a value equal to the one its number has unlisted is
not listed. -/
def Sparse.write {α : Type} [DecidableEq α] (d : Nat → α) (a : Nat) (b : α) : List (Nat × α) → List (Nat × α)
  | [] => if b = d a then [] else [(a, b)]
  | (k, c) :: m =>
    if a < k then (if b = d a then (k, c) :: m else (a, b) :: (k, c) :: m)
    else if a = k then (if b = d a then m else (a, b) :: m)
    else (k, c) :: Sparse.write d a b m

/-- Numbers strictly rising, from `lo` on and below `hi`, and no entry equal to what its number has unlisted. -/
def Sparse.wfFrom {α : Type} [DecidableEq α] (d : Nat → α) (hi : Nat) (lo : Nat) : List (Nat × α) → Bool
  | [] => true
  | (k, c) :: m => decide (lo ≤ k) && decide (k < hi) && decide (c ≠ d k) && Sparse.wfFrom d hi (k + 1) m

/-! ## Memory (spec/20_memory.md R50, R51) -/

/-- What an address that memory does not list reads as: the reset contents, `FONT` at 0x000..0x04F and 0 above
(R30, R250). -/
def Memory.unlisted (p : Config.Params) (a : Nat) : Byte :=
  if h : a < 80 then p.font[a] else 0

/-- The byte at an address. -/
def Memory.read (p : Config.Params) (m : Memory) (a : Nat) : Byte := Sparse.read (Memory.unlisted p) a m

/-- Memory with one byte written. -/
def Memory.write (p : Config.Params) (m : Memory) (a : Nat) (b : Byte) : Memory :=
  Sparse.write (Memory.unlisted p) a b m

/-- The canonical form of memory: 4096 addresses. -/
def Memory.wf (p : Config.Params) (m : Memory) : Bool := Sparse.wfFrom (Memory.unlisted p) 4096 0 m

/-! ## Framebuffer (R28) -/

/-- A cell that is not listed is off. -/
def Framebuffer.unlisted (_c : Nat) : Pixel := 0

/-- `FB[c]`. -/
def Framebuffer.cell (fb : Framebuffer) (c : CellIdx) : Pixel := Sparse.read Framebuffer.unlisted c.val fb

/-- `FB[c] <- v`. -/
def Framebuffer.write (fb : Framebuffer) (c : CellIdx) (v : Pixel) : Framebuffer :=
  Sparse.write Framebuffer.unlisted c.val v fb

/-- The canonical form of the framebuffer: 2048 cells. -/
def Framebuffer.wf (fb : Framebuffer) : Bool := Sparse.wfFrom Framebuffer.unlisted 2048 0 fb

/-- Every cell off (R100). -/
def Framebuffer.blank : Framebuffer := []

/-! ## Accessors -/

/-- `V[x]` (R20): no register is hardwired. -/
def State.readV (s : State) (x : RegIdx) : Byte := s.v[x]

/-- `V[x] <- b` (R20). -/
def State.writeV (s : State) (x : RegIdx) (b : Byte) : State := { s with v := s.v.set x b }

/-- The flag register VF = `V[15]` (R21). -/
def vf : RegIdx := 15

/-- VF written as a flag: 1 or 0 (R21). -/
def State.setFlag (s : State) (f : Bool) : State := s.writeV vf (if f then 1 else 0)

/-- `I <- w` (R22). -/
def State.writeI (s : State) (w : Word) : State := { s with i := w }

/-- `PC <- w` (R23). -/
def State.writePc (s : State) (w : Word) : State := { s with pc := w }

/-- `PC <- PC + k`, modulo 65536 (R23; the spec's decision D9, log 14). -/
def State.advance (s : State) (k : Word) : State := s.writePc (s.pc + k)

/-- `DT <- b` (R25). -/
def State.writeDt (s : State) (b : Byte) : State := { s with dt := b }

/-- `ST <- b` (R26). -/
def State.writeSt (s : State) (b : Byte) : State := { s with st := b }

/-- The framebuffer replaced whole. -/
def State.writeFb (s : State) (fb : Framebuffer) : State := { s with fb := fb }

/-- `MEM[a]` (R30). Every caller has checked its range first (R8). -/
def State.readByte (s : State) (a : Nat) : Byte := Memory.read s.params s.mem a

/-- `MEM[a] <- b` (R30). Every caller has checked its range first (R8). -/
def State.writeByte (s : State) (a : Nat) (b : Byte) : State := { s with mem := Memory.write s.params s.mem a b }

/-- The outputs of the step (R201). -/
def State.emit (s : State) (r : StepResult) (dirty : Bool) : State := { s with out := { result := r, dirty := dirty } }

/-! ## Blocks of bytes, ascending from an address (R55) -/

/-- Whether the `n` bytes from `a` on all lie in memory, on natural numbers (R56; the spec's decision D7, log 7). -/
def inMemory (a n : Nat) : Bool := decide (a + n ≤ 4096)

/-- `MEM[a] .. MEM[a+n-1]`. -/
def State.loadBytes (s : State) (a : Nat) : Nat → List Byte
  | 0 => []
  | n + 1 => s.readByte a :: s.loadBytes (a + 1) n

/-- The bytes of a list to `MEM[a]` and upward. -/
def State.storeBytes (s : State) (a : Nat) : List Byte → State
  | [] => s
  | b :: bs => (s.writeByte a b).storeBytes (a + 1) bs

/-! ## Blocks of registers (R176, R177) -/

/-- `V[0] .. V[x]`. -/
def State.regBlock (s : State) (x : RegIdx) : List Byte := s.v.toList.take (x.val + 1)

/-- The bytes of a list to `V[k]` and upward. -/
def State.writeRegs (s : State) (k : Nat) : List Byte → State
  | [] => s
  | b :: bs => (if h : k < 16 then s.writeV ⟨k, h⟩ b else s).writeRegs (k + 1) bs

/-! ## Ending an instruction -/

/-- A fault: the one shared operation for every exception of the machine. There is no trap entry: nothing is saved,
no mode changes, control goes nowhere, and no state changes (spec/60_exceptions.md R224, R228); nor is there a return
from one (R229). The spec's decisions D3 to D6, D23: log 7. -/
def raise (f : Fault) : Host.Outcome State Fault Refusal := .fault f

/-- The instruction is complete, with PC already written: `return (Continue, dirty)`. -/
def complete (s : State) (dirty : Bool) : Host.Outcome State Fault Refusal := .next (s.emit .cont dirty)

/-- `PC <- PC + 2; return (Continue, dirty = false)`. -/
def completeNext (s : State) : Host.Outcome State Fault Refusal := complete (s.advance 2) false

/-- `if c: PC <- PC + 4 else PC <- PC + 2; return (Continue, dirty = false)`. -/
def completeSkip (s : State) (c : Bool) : Host.Outcome State Fault Refusal :=
  complete (s.advance (if c then 4 else 2)) false

/-! ## The call stack (R24) -/

/-- `STACK[SP] <- w; SP <- SP + 1`; none when the stack is full. -/
def State.push (s : State) (w : Word) : Option State :=
  if h : s.sp.val < 16 then
    some { s with stack := s.stack.set s.sp.val w, sp := ⟨s.sp.val + 1, Nat.succ_lt_succ h⟩ }
  else none

/-- `SP <- SP - 1`, with `STACK[SP]`, which keeps its value; none when the stack is empty. -/
def State.pop (s : State) : Option (Word × State) :=
  if h : 0 < s.sp.val then
    have h16 : s.sp.val - 1 < 16 := by have := s.sp.isLt; omega
    some (s.stack[s.sp.val - 1], { s with sp := ⟨s.sp.val - 1, by omega⟩ })
  else none

/-! ## Fetch (R200) -/

/-- `MEM[PC] * 256 + MEM[PC+1]`; none when either byte lies outside memory (R57, R220). -/
def State.fetch (s : State) : Option Word :=
  if inMemory s.pc.toNat 2 then
    some (wordOfBytes (s.readByte s.pc.toNat) (s.readByte (s.pc.toNat + 1)))
  else none

/-- Where the next instruction's word is placed from outside: at PC; where PC holds no address it can be fetched
from, at 0x200, the loader's origin, with PC set there (R252). DESIGN CHOICE: log 19. -/
def State.placeWord (s : State) (w : Word) : State :=
  if inMemory s.pc.toNat 2 then s.storeBytes s.pc.toNat (wordBytes w)
  else (s.writePc 0x200).storeBytes 0x200 (wordBytes w)

end Sys2Proof.Machine
end

