-- ==== Sys2Proof/Machine/Operands.lean ====
section
/-! DEFINITION. The operand forms (spec/30_encoding.md R72): everything an instruction computes from a field or a
register to get a value, an address or a cell. -/

namespace Sys2Proof.Machine

/-- `nnn` into I or PC: zero-extended to 16 bits (R72). -/
def extendAddr (nnn : Addr12) : Word := nnn.setWidth 16

/-- A register value zero-extended to 16 bits. -/
def extendByte (b : Byte) : Word := b.setWidth 16

/-- `V0 + nnn`, not masked to 12 bits (R116; the spec's decision D9, UNVERIFIED, unsafe: log 14). -/
def indexedTarget (v0 : Byte) (nnn : Addr12) : Word := extendByte v0 + extendAddr nnn

/-- `Vx * 5`, all 8 bits of Vx taking part (R174). -/
def glyphAddr (vx : Byte) : Word := extendByte vx * 5

/-- `Vx & 0xF`, the key index (R160). -/
def keyIndex (vx : Byte) : RegIdx := (vx.extractLsb' 0 4).toFin

/-- Whether the key a register selects is down (R160, R161). -/
def State.keyDown (s : State) (vx : Byte) : Bool := s.key[keyIndex vx]

/-- The key indices in scan order (R162). -/
def keyScan : List RegIdx := [0, 1, 2, 3, 4, 5, 6, 7, 8, 9, 10, 11, 12, 13, 14, 15]

/-- The first pressed key, scanning 0..15 (R162). -/
def State.firstKey (s : State) : Option RegIdx := keyScan.find? (fun k => s.key[k])

/-- The decimal digits of a byte: hundreds, tens, units (R175). -/
def bcdDigits (vx : Byte) : List Byte :=
  [BitVec.ofNat 8 (vx.toNat / 100), BitVec.ofNat 8 (vx.toNat / 10 % 10), BitVec.ofNat 8 (vx.toNat % 10)]

/-- The cell at a row and a column, wrapping in both: `(r mod 32) * 64 + (c mod 64)` (R152). -/
def cellIndex (r c : Nat) : CellIdx := ⟨r % 32 * 64 + c % 64, by omega⟩

/-- The columns 0..7 of a sprite byte whose bit is 1, bit 7 leftmost (R6, R150). -/
def spriteColumns (b : Byte) : List Nat := [0, 1, 2, 3, 4, 5, 6, 7].filter (fun j => b.getLsbD (7 - j))

/-- The cells the 1 bits of a sprite land on, in the order of the loops of R150: rows from row `r` on, top to
bottom, one byte a row, with the left edge at column `c`. -/
def spriteCells (c r : Nat) : List Byte → List CellIdx
  | [] => []
  | b :: bs => (spriteColumns b).map (fun j => cellIndex r (c + j)) ++ spriteCells c (r + 1) bs

/-- The 24-bit packed value of a record's colour: R in bits 23..16, G in 15..8, B in 7..0 (R151; the spec's decision
D15, UNVERIFIED, unsafe: log 13). -/
def OverlayRec.colour (k : OverlayRec) : Pixel := k.r ++ k.g ++ k.b

/-- The draw colour (R151): with at least two records, the colour of the first record from index 2 on whose address
is I, else of record 1; with fewer, `DEFAULT_FG`. The first match is the spec's decision D14, UNVERIFIED, unsafe:
log 13. -/
def drawColour (p : Config.Params) (ov : List OverlayRec) (i0 : Word) : Pixel :=
  match ov with
  | _ :: k1 :: rest => ((rest.find? (fun k => k.addr == i0)).getD k1).colour
  | _ => p.defaultFg

end Sys2Proof.Machine
end

