-- ==== Sys2Proof/Machine/Flags.lean ====
section
/-! DEFINITION. The flag computations: VF is the only flag (spec/10_state.md R21). -/

namespace Sys2Proof.Machine

/-- `8xy4`: carry out of the 8-bit addition (R135). -/
def flagCarry (vx vy : Byte) : Bool := decide (vx.toNat + vy.toNat > 255)

/-- `8xy5`: Vx strictly greater than Vy, so 0 at equality (R136). -/
def flagGreater (vx vy : Byte) : Bool := decide (vx.toNat > vy.toNat)

/-- `8xy7`: Vx not greater than Vy, so 1 at equality (R138). -/
def flagNotGreater (vx vy : Byte) : Bool := !decide (vx.toNat > vy.toNat)

/-- `8xy6`: bit 0 of Vy before the shift (R137). -/
def flagShr (vy : Byte) : Bool := vy.getLsbD 0

/-- `8xyE`: bit 7 of Vy before the shift (R139). -/
def flagShl (vy : Byte) : Bool := vy.getLsbD 7

/-- `Dxyn`: one sprite bit on one cell (R150, R153). A lit cell, whatever its colour, goes off and a collision is
recorded; a cell that is off takes the draw colour. -/
def toggleCell (colour : Pixel) (d : Framebuffer × Bool) (c : CellIdx) : Framebuffer × Bool :=
  if Framebuffer.cell d.1 c != 0 then (Framebuffer.write d.1 c 0, true) else (Framebuffer.write d.1 c colour, d.2)

/-- `Dxyn`: the framebuffer after the draw, and whether a lit cell was hit; VF starts at 0 (R150). -/
def drawCells (colour : Pixel) (fb : Framebuffer) (cells : List CellIdx) : Framebuffer × Bool :=
  cells.foldl (toggleCell colour) (fb, false)

end Sys2Proof.Machine
end

