-- ==== Sys2Proof/Machine/Alu.lean ====
section
/-! DEFINITION. Register-to-register ALU (spec/43_alu_8xyn.md R130 to R139). Operands are sampled before any write,
and the writes are in the order the rules list them, which decides the result when x = 15 (R10, R130 (e); the spec's
decision D2, UNVERIFIED, unsafe on the alias forms: log 8). -/

namespace Sys2Proof.Machine

/-- The shape of `8xy4`, `8xy5`, `8xy7`: the flag is written first, the result second. -/
def flagThenResult (x : RegIdx) (result : Byte) (flag : Bool) (s : State) : Host.Outcome State Fault Refusal :=
  completeNext ((s.setFlag flag).writeV x result)

/-- The shape of `8xy6`, `8xyE`: the result is written first, the flag second. -/
def resultThenFlag (x : RegIdx) (result : Byte) (flag : Bool) (s : State) : Host.Outcome State Fault Refusal :=
  completeNext ((s.writeV x result).setFlag flag)

/-- `8xy0` LD Vx, Vy (R131). -/
def execLdReg (x y : RegIdx) (s : State) : Host.Outcome State Fault Refusal := completeNext (s.writeV x (s.readV y))

/-- `8xy1` OR Vx, Vy (R132). -/
def execOrReg (x y : RegIdx) (s : State) : Host.Outcome State Fault Refusal :=
  completeNext (s.writeV x (s.readV x ||| s.readV y))

/-- `8xy2` AND Vx, Vy (R133). -/
def execAndReg (x y : RegIdx) (s : State) : Host.Outcome State Fault Refusal :=
  completeNext (s.writeV x (s.readV x &&& s.readV y))

/-- `8xy3` XOR Vx, Vy (R134). -/
def execXorReg (x y : RegIdx) (s : State) : Host.Outcome State Fault Refusal :=
  completeNext (s.writeV x (s.readV x ^^^ s.readV y))

/-- `8xy4` ADD Vx, Vy (R135). -/
def execAddReg (x y : RegIdx) (s : State) : Host.Outcome State Fault Refusal :=
  flagThenResult x (s.readV x + s.readV y) (flagCarry (s.readV x) (s.readV y)) s

/-- `8xy5` SUB Vx, Vy (R136). -/
def execSubReg (x y : RegIdx) (s : State) : Host.Outcome State Fault Refusal :=
  flagThenResult x (s.readV x - s.readV y) (flagGreater (s.readV x) (s.readV y)) s

/-- `8xy6` SHR Vx, Vy (R137): the value shifted is Vy. -/
def execShrReg (x y : RegIdx) (s : State) : Host.Outcome State Fault Refusal :=
  resultThenFlag x (s.readV y >>> 1) (flagShr (s.readV y)) s

/-- `8xy7` SUBN Vx, Vy (R138). -/
def execSubnReg (x y : RegIdx) (s : State) : Host.Outcome State Fault Refusal :=
  flagThenResult x (s.readV y - s.readV x) (flagNotGreater (s.readV x) (s.readV y)) s

/-- `8xyE` SHL Vx, Vy (R139): the value shifted is Vy. -/
def execShlReg (x y : RegIdx) (s : State) : Host.Outcome State Fault Refusal :=
  resultThenFlag x (s.readV y <<< 1) (flagShl (s.readV y)) s

end Sys2Proof.Machine
end

