-- ==== Sys2Proof/Machine/Draw.lean ====
section
/-! DEFINITION. Sprite draw (spec/44_draw.md R150 to R156). -/

namespace Sys2Proof.Machine

/-- The cells the 1 bits of the sprite at I land on: n rows, column origin Vx, row origin Vy (R150, R152). -/
def State.drawTargets (s : State) (x y : RegIdx) (n : Nibble) : List CellIdx :=
  spriteCells (s.readV x).toNat (s.readV y).toNat (s.loadBytes s.i.toNat n.toNat)

/-- The framebuffer after the draw and whether a lit cell was hit (R150, R153), in the colour chosen once (R151). -/
def State.drawOutcome (s : State) (x y : RegIdx) (n : Nibble) : Framebuffer × Bool :=
  drawCells (drawColour s.params s.ov s.i) s.fb (s.drawTargets x y n)

/-- `Dxyn` DRW Vx, Vy, n (R150): `OutOfBounds` when I + n > 4096, nothing changed; else every 1 bit of the sprite
toggles its cell, VF is the collision, and dirty says whether any bit was 1 (R156; the spec's decision D18, log 16).
Height 0 draws nothing and clears VF (R154; the spec's decision D13, UNVERIFIED, unsafe: log 12). -/
def execDrw (x y : RegIdx) (n : Nibble) (s : State) : Host.Outcome State Fault Refusal :=
  if inMemory s.i.toNat n.toNat then
    complete (((s.writeFb (s.drawOutcome x y n).1).setFlag (s.drawOutcome x y n).2).advance 2)
      (!(s.drawTargets x y n).isEmpty)
  else raise .outOfBounds

end Sys2Proof.Machine
end

