-- ==== Sys2Proof/Machine/Flow.lean ====
section
/-! DEFINITION. Jumps, calls and conditional skips (spec/41_flow_and_skips.md R110 to R116). -/

namespace Sys2Proof.Machine

/-- `1nnn` JP nnn (R110). -/
def execJp (nnn : Addr12) (s : State) : Host.Outcome State Fault Refusal := complete (s.writePc (extendAddr nnn)) false

/-- `2nnn` CALL nnn (R111): pushes PC + 2; `StackFault` on a full stack (R222). -/
def execCall (nnn : Addr12) (s : State) : Host.Outcome State Fault Refusal :=
  match s.push (s.pc + 2) with
  | some t => complete (t.writePc (extendAddr nnn)) false
  | none => raise .stackFault

/-- `3xkk` SE Vx, kk (R112). -/
def execSeImm (x : RegIdx) (kk : Byte) (s : State) : Host.Outcome State Fault Refusal :=
  completeSkip s (s.readV x == kk)

/-- `4xkk` SNE Vx, kk (R113). -/
def execSneImm (x : RegIdx) (kk : Byte) (s : State) : Host.Outcome State Fault Refusal :=
  completeSkip s (s.readV x != kk)

/-- `5xyn` SE Vx, Vy (R114), whatever n (R78; the spec's decision D10, log 10). -/
def execSeReg (x y : RegIdx) (_n : Nibble) (s : State) : Host.Outcome State Fault Refusal :=
  completeSkip s (s.readV x == s.readV y)

/-- `9xyn` SNE Vx, Vy (R115), whatever n (R78; the spec's decision D10, log 10). -/
def execSneReg (x y : RegIdx) (_n : Nibble) (s : State) : Host.Outcome State Fault Refusal :=
  completeSkip s (s.readV x != s.readV y)

/-- `Bnnn` JP V0, nnn (R116): not masked to 12 bits. -/
def execJpV0 (nnn : Addr12) (s : State) : Host.Outcome State Fault Refusal :=
  complete (s.writePc (indexedTarget (s.readV 0) nnn)) false

end Sys2Proof.Machine
end

