-- ==== Sys2Proof/Machine/Keypad.lean ====
section
/-! DEFINITION. Keypad instructions (spec/45_keypad.md R160 to R162). -/

namespace Sys2Proof.Machine

/-- `Ex9E` SKP Vx (R160). -/
def execSkp (x : RegIdx) (s : State) : Host.Outcome State Fault Refusal := completeSkip s (s.keyDown (s.readV x))

/-- `ExA1` SKNP Vx (R161). -/
def execSknp (x : RegIdx) (s : State) : Host.Outcome State Fault Refusal := completeSkip s (!s.keyDown (s.readV x))

/-- `Fx0A` LD Vx, K (R162): the lowest pressed key; with none, nothing changes and PC stays on the instruction. -/
def execLdVxK (x : RegIdx) (s : State) : Host.Outcome State Fault Refusal :=
  match s.firstKey with
  | some k => completeNext (s.writeV x (BitVec.ofNat 8 k.val))
  | none => complete s false

end Sys2Proof.Machine
end

