-- ==== Sys2Proof/Machine/LoadAdd.lean ====
section
/-! DEFINITION. Immediate load and add, index load, random (spec/42_load_add_index_random.md R120 to R123). -/

namespace Sys2Proof.Machine

/-- `6xkk` LD Vx, kk (R120). -/
def execLdImm (x : RegIdx) (kk : Byte) (s : State) : Host.Outcome State Fault Refusal := completeNext (s.writeV x kk)

/-- `7xkk` ADD Vx, kk (R121): modulo 256, no carry recorded. -/
def execAddImm (x : RegIdx) (kk : Byte) (s : State) : Host.Outcome State Fault Refusal :=
  completeNext (s.writeV x (s.readV x + kk))

/-- `Annn` LD I, nnn (R122). -/
def execLdI (nnn : Addr12) (s : State) : Host.Outcome State Fault Refusal := completeNext (s.writeI (extendAddr nnn))

/-- A random byte is drawn: it is a free value, any byte, and the next draw is another (R123; log 1). -/
def State.drawByte (s : State) : Byte × State := (Config.randByte s.draws, { s with draws := s.draws + 1 })

/-- `Cxkk` for a given draw (R123): `V[x] <- rand & kk`. -/
def rndWith (rand : Byte) (x : RegIdx) (kk : Byte) (s : State) : Host.Outcome State Fault Refusal :=
  completeNext (s.writeV x (rand &&& kk))

/-- `Cxkk` RND Vx, kk (R123). -/
def execRnd (x : RegIdx) (kk : Byte) (s : State) : Host.Outcome State Fault Refusal :=
  rndWith s.drawByte.1 x kk s.drawByte.2

end Sys2Proof.Machine
end

