-- ==== Sys2Proof/Machine/System.lean ====
section
/-! DEFINITION. Family 0 and the unrecognised words (spec/40_family0_system.md R100 to R103). -/

namespace Sys2Proof.Machine

/-- `00E0` CLS (R100): every cell to 0; dirty is reported always (the spec's decision D18, log 16). -/
def execCls (s : State) : Host.Outcome State Fault Refusal :=
  complete ((s.writeFb Framebuffer.blank).advance 2) true

/-- `00EE` RET (R101): the popped address goes to PC, not advanced further; `StackFault` on an empty stack (R223). -/
def execRet (s : State) : Host.Outcome State Fault Refusal :=
  match s.pop with
  | some (target, t) => complete (t.writePc target) false
  | none => raise .stackFault

/-- `0000` HALT (R102): the result is `Halt`; no state changes and PC is not advanced, so a further step halts
again (log 4). -/
def execHalt (s : State) : Host.Outcome State Fault Refusal := .next (s.emit .halt false)

/-- UNK (R103): a no-op, whatever the word. -/
def execUnk (_w : Word) (s : State) : Host.Outcome State Fault Refusal := completeNext s

end Sys2Proof.Machine
end

