-- ==== Sys2Proof/Machine/TimerIndexMemory.lean ====
section
/-! DEFINITION. Timer, index and memory-block instructions (spec/46_timer_index_memory.md R170 to R177). -/

namespace Sys2Proof.Machine

/-- `Fx07` LD Vx, DT (R170). -/
def execLdVxDt (x : RegIdx) (s : State) : Host.Outcome State Fault Refusal := completeNext (s.writeV x s.dt)

/-- `Fx15` LD DT, Vx (R171). -/
def execLdDt (x : RegIdx) (s : State) : Host.Outcome State Fault Refusal := completeNext (s.writeDt (s.readV x))

/-- `Fx18` LD ST, Vx (R172). -/
def execLdSt (x : RegIdx) (s : State) : Host.Outcome State Fault Refusal := completeNext (s.writeSt (s.readV x))

/-- `Fx1E` ADD I, Vx (R173): modulo 65536, VF untouched (the spec's decision D8, UNVERIFIED, unsafe: log 14). -/
def execAddI (x : RegIdx) (s : State) : Host.Outcome State Fault Refusal :=
  completeNext (s.writeI (s.i + extendByte (s.readV x)))

/-- `Fx29` LD F, Vx (R174): Vx * 5, Vx not masked to 4 bits. -/
def execLdF (x : RegIdx) (s : State) : Host.Outcome State Fault Refusal :=
  completeNext (s.writeI (glyphAddr (s.readV x)))

/-- `Fx33` LD B, Vx (R175): the three digits to I, I+1, I+2; `OutOfBounds`, with nothing written, when I + 2 >= 4096. -/
def execLdB (x : RegIdx) (s : State) : Host.Outcome State Fault Refusal :=
  if inMemory s.i.toNat 3 then completeNext (s.storeBytes s.i.toNat (bcdDigits (s.readV x)))
  else raise .outOfBounds

/-- `Fx55` LD [I], Vx (R176): V0..Vx to I..I+x, I unchanged; `OutOfBounds`, with nothing written, when
I + x >= 4096. -/
def execStoreRegs (x : RegIdx) (s : State) : Host.Outcome State Fault Refusal :=
  if inMemory s.i.toNat (x.val + 1) then completeNext (s.storeBytes s.i.toNat (s.regBlock x))
  else raise .outOfBounds

/-- `Fx65` LD Vx, [I] (R177): I..I+x to V0..Vx, I unchanged; `OutOfBounds`, with nothing loaded, when
I + x >= 4096. -/
def execLoadRegs (x : RegIdx) (s : State) : Host.Outcome State Fault Refusal :=
  if inMemory s.i.toNat (x.val + 1) then completeNext (s.writeRegs 0 (s.loadBytes s.i.toNat (x.val + 1)))
  else raise .outOfBounds

end Sys2Proof.Machine
end

