-- ==== Sys2Proof/Machine/Step.lean ====
section
/-! DEFINITION. One step (spec/50_step_and_interfaces.md R200): fetch, decode, execute. -/

namespace Sys2Proof.Machine

/-- `step` (R200): the fetch check comes first, and if it fails nothing is decoded (R220, R227); else exactly one
instruction executes. -/
def step (s : State) : Host.Outcome State Fault Refusal :=
  match s.fetch with
  | some w => exec (decode w) s
  | none => raise .outOfBounds

/-- `s` with the instruction of bits `w` stored where `step` fetches its next instruction (log 19). -/
def State.withFetchWord (s : State) (nbits w : Nat) : State := s.placeWord (BitVec.ofNat 16 (w % 2 ^ nbits))

end Sys2Proof.Machine
end

