-- ==== Sys2Proof/Machine/Transactions.lean ====
section
/-! DEFINITION. The host's atomic transactions (spec/50_step_and_interfaces.md R206 to R212, spec/60_exceptions.md R233,
spec/70_reset_and_hazards.md R252 to R254). A machine's life begins with `reset` (State.resetWith); it is never issued
again (R250). -/

namespace Sys2Proof.Machine

/-! ## tick, set_keys, fb_read -/

/-- One timer, one tick: down by one when above zero, never below (R233). -/
def tickTimer (b : Byte) : Byte := if b.toNat > 0 then b - 1 else b

/-- `tick()` (R233). -/
def tick (s : State) : State := (s.writeDt (tickTimer s.dt)).writeSt (tickTimer s.st)

/-- `set_keys(k)` (R209): all sixteen flags replaced at once. -/
def setKeys (k : Vector Bool 16) (s : State) : State := { s with key := k }

/-- `fb_read(idx)` (R210); an index above 2047 cannot be expressed (93_implementation_defined.md U13). -/
def fbRead (c : CellIdx) (s : State) : Pixel := s.fb.cell c

/-- The Boolean view of a cell: lit when nonzero (R28, R210). -/
def lit (v : Pixel) : Bool := v != 0

/-- A step with an injected opcode (R203): the word replaces the fetched one, and the fetch with its bounds check is
skipped. A test-only path, no part of the block (the spec's decision D30): no transaction issues it. -/
def injectedStep (op : Word) (s : State) : Host.Outcome State Fault Refusal := exec (decode op) s

/-! ## load -/

/-- Where a program is loaded, and PC after a load (R4, R252). -/
def progBase : Nat := 0x200

/-- The largest program the loader accepts (R4, R252). -/
def progMax : Nat := 0xE00

/-- An overlay record from its external form, five bytes, the address big-endian (R253). -/
def overlayRecOfBytes (b0 b1 r g b : Byte) : OverlayRec := { addr := b0 ++ b1, r := r, g := g, b := b }

/-- `AcceptOverlay` (R254): an absent or malformed overlay (`none`) or one of fewer than two records disables it. -/
def acceptOverlay : Option (List OverlayRec) → List OverlayRec
  | some (k0 :: k1 :: rest) => k0 :: k1 :: rest
  | _ => []

/-- A successful `load` (R252): the bytes to 0x200 and upward, PC to 0x200, the overlay accepted. -/
def loadProgram (bytes : List Byte) (overlay : Option (List OverlayRec)) (s : State) : State :=
  { (s.storeBytes progBase bytes).writePc 0x200 with ov := acceptOverlay overlay, loaded := true }

/-! ## Transactions (R206) -/

/-- A transaction of the host after `reset` (R206). -/
inductive Transaction where
  /-- the program's bytes, and the parsed overlay records if the overlay resource was there and well formed -/
  | load (bytes : List Byte) (overlay : Option (List OverlayRec))
  | step
  | tick
  | setKeys (k : Vector Bool 16)
  | fbRead (c : CellIdx)
  deriving DecidableEq, Repr

/-- What a transaction returns to the host (R202, R206, R225). -/
inductive Reply where
  /-- `load` succeeded -/
  | loadOk
  /-- `LoadError`: an oversized program -/
  | loadError
  /-- the result code and the dirty flag of a step -/
  | stepped (result : StepResult) (dirty : Bool)
  /-- `tick` and `set_keys` return nothing -/
  | done
  /-- the cell `fb_read` read -/
  | cell (v : Pixel)
  deriving DecidableEq, Repr

/-- The result code of a fault (R202). -/
def Fault.code : Fault → StepResult
  | .outOfBounds => .outOfBounds
  | .stackFault => .stackFault

/-- The `step` transaction (R200, R201): the host sees the result and the dirty flag. A faulting step changes no state
and reports dirty false (R224); only the record of its outputs is written, so a further step is an ordinary step
(R230). -/
def stepTransaction (s : State) : Host.Outcome (State × Reply) Fault Refusal :=
  match step s with
  | .next t => .next (t, .stepped t.out.result t.out.dirty)
  | .fault f => .next (s.emit f.code false, .stepped f.code false)
  | .refused r => .refused r

/-- The `load` transaction (R252): refused after a successful load (R212, decision D26, log 6); an oversized program
is a LoadError that changes nothing. -/
def loadTransaction (bytes : List Byte) (overlay : Option (List OverlayRec)) (s : State) :
    Host.Outcome (State × Reply) Fault Refusal :=
  if s.loaded then .refused .reloadNotSupported
  else if progMax < bytes.length then .next (s, .loadError)
  else .next (loadProgram bytes overlay s, .loadOk)

/-- One transaction: the state after it and its reply. -/
def transact (t : Transaction) (s : State) : Host.Outcome (State × Reply) Fault Refusal :=
  match t with
  | .load bytes overlay => loadTransaction bytes overlay s
  | .step => stepTransaction s
  | .tick => .next (tick s, .done)
  | .setKeys k => .next (setKeys k s, .done)
  | .fbRead c => .next (s, .cell (fbRead c s))

/-- A sequence of transactions, in any interleaving (R207). -/
def transactAll : List Transaction → State → Host.Outcome State Fault Refusal
  | [], s => .next s
  | t :: ts, s =>
    match transact t s with
    | .next (s', _) => transactAll ts s'
    | .fault f => .fault f
    | .refused r => .refused r

/-! ## The run of a host (R211) -/

/-- The result code a reply reports: that of a step; the other transactions report none (R202). -/
def Reply.code : Reply → Option StepResult
  | .stepped result _ => some result
  | .loadOk | .loadError | .done | .cell _ => none

/-- How a run stands after the transactions the host has issued (R211). -/
inductive RunEnd where
  /-- no step has returned anything but `Continue`: the run has not ended -/
  | running (s : State)
  /-- a step returned `Halt`: the run ended cleanly, and this is its final state -/
  | ended (s : State)
  /-- a step returned this fault: the run has faulted, and its state is not a final state (decision D23) -/
  | faulted (f : Fault)
  /-- the host issued a transaction the machine has no move for -/
  | refused (r : Refusal)
  deriving DecidableEq, Repr

/-- The run of the transactions `ts` from `s` (R211): it ends at the first step that returns `Halt` and faults at the
first that returns a fault; whatever the host issues after that is no part of it. That the host may go on stepping is
`transactAll`. -/
def runHost : List Transaction → State → RunEnd
  | [], s => .running s
  | tx :: ts, s =>
    match transact tx s with
    | .next (t, r) =>
      match r.code with
      | some .halt => .ended t
      | some .outOfBounds => .faulted .outOfBounds
      | some .stackFault => .faulted .stackFault
      | some .cont => runHost ts t
      | none => runHost ts t
    | .fault f => .faulted f
    | .refused r => .refused r

end Sys2Proof.Machine
end

