-- ==== Sys2Proof/Safety.lean ====
section
/-! DEFINITION. What counts as a safe run, in the terms claims use: the locations of the machine and what a change
leaves alone, the invariants of spec/10_state.md R36, the states a machine can reach, the end of a run. -/

namespace Sys2Proof.Machine

/-! ## Locations and frames -/

/-- A location of the machine: one name for every part of State. -/
inductive Loc where
  | v (x : RegIdx)
  | i
  | pc
  | sp
  | stack (k : RegIdx)
  | dt
  | st
  | key (k : RegIdx)
  | fb (c : CellIdx)
  | ov
  | mem (a : Nat)
  | params
  | draws
  | out
  | loaded
  deriving DecidableEq, Repr

/-- A location reads the same in two states. Memory is read byte by byte, the framebuffer cell by cell. -/
def Loc.same (s t : State) : Loc → Prop
  | .v x => t.readV x = s.readV x
  | .i => t.i = s.i
  | .pc => t.pc = s.pc
  | .sp => t.sp = s.sp
  | .stack k => t.stack[k] = s.stack[k]
  | .dt => t.dt = s.dt
  | .st => t.st = s.st
  | .key k => t.key[k] = s.key[k]
  | .fb c => t.fb.cell c = s.fb.cell c
  | .ov => t.ov = s.ov
  | .mem a => t.readByte a = s.readByte a
  | .params => t.params = s.params
  | .draws => t.draws = s.draws
  | .out => t.out = s.out
  | .loaded => t.loaded = s.loaded

/-- `t` differs from `s` at most in the locations `W` allows (R11: a location an effect does not name is unchanged). -/
def Frame (W : Loc → Prop) (s t : State) : Prop := ∀ l, ¬ W l → l.same s t

/-- The outputs a step leaves: its result code and its dirty flag (R201). -/
def State.Returned (t : State) (result : StepResult) (dirty : Bool) : Prop :=
  t.out = { result := result, dirty := dirty }

/-- A sprite bit that is 1 lands on cell `c` when `Dxyn` is executed in `s`: bit `7 - col` of the byte at I + row, on
the cell at row `(Vy + row) mod 32` and column `(Vx + col) mod 64` (R150, R152). -/
def State.SpriteCovers (s : State) (x y : RegIdx) (n : Nibble) (c : CellIdx) : Prop :=
  ∃ row col : Nat, row < n.toNat ∧ col < 8 ∧ (s.readByte (s.i.toNat + row)).getLsbD (7 - col) = true ∧
    c.val = ((s.readV y).toNat + row) % 32 * 64 + ((s.readV x).toNat + col) % 64

/-- The states reached from `s` by an outcome, through a change of state; a fault or a refusal is kept. -/
def mapNext (f : State → State) : Host.Outcome State Fault Refusal → Host.Outcome State Fault Refusal
  | .next t => .next (f t)
  | .fault r => .fault r
  | .refused r => .refused r

/-! ## Invariants (R36) -/

/-- The invariants of R36 that the types do not already carry: PC is at most 0x10FE, every live stack entry is at most
0x1000, the overlay is empty or has at least two records; and the model's own: memory and framebuffer are in canonical
form, and `DEFAULT_FG` is nonzero (R4). -/
structure State.Inv (s : State) : Prop where
  pcLe    : s.pc.toNat ≤ 0x10FE
  stackLe : ∀ k : RegIdx, k.val < s.sp.val → (s.stack[k]).toNat ≤ 0x1000
  ovLen   : s.ov.length ≠ 1
  memWf   : s.mem.wf s.params = true
  fbWf    : s.fb.wf = true
  fgLit   : s.params.defaultFg ≠ 0

/-- The states a machine can reach: reset, with any parameters R4 allows, and any transactions after it, in any order
(R207, R212). -/
inductive Reachable : State → Prop where
  | reset (p : Config.Params) (h : p.defaultFg ≠ 0) : Reachable (State.resetWith p)
  | transact {s t : State} {r : Reply} (tx : Transaction) (hs : Reachable s)
      (h : Sys2Proof.Machine.transact tx s = .next (t, r)) : Reachable t

/-! ## The end of a run (R211) -/

/-- The run of a host that issues steps alone (`runHost` in Machine/Transactions.lean is the run of any host): `s` runs
to a clean end within `n` steps, and the first step whose result is `Halt` gives the final state. A faulted state is never final (R211, R230, decision D23). -/
def runsToHalt : Nat → State → Option State
  | 0, _ => none
  | n + 1, s =>
    match step s with
    | .next t => if t.out.result = .halt then some t else runsToHalt n t
    | .fault _ => none
    | .refused _ => none

end Sys2Proof.Machine
end

