-- ==== Sys2Proof/Certificates/Slice0/Obligations.lean ====
section
/-! DEFINITION. The statements for the provers. Where a clause rests on a decision the spec marks as its own, the
docstring names it. Every frame is R35's "An instruction not listed for a location does not touch it": a location it
leaves out is one R35 does not list. `out`, `draws` and `loaded` are the model's own fields (logs 4, 1, 6). -/

open Sys2Proof Sys2Proof.Machine

/-! ## Fetch and decode -/

/-- R200: the big-endian word at PC and PC + 1, and the execution of the one instruction it decodes to, in the state the
step began with (PC not advanced by the fetch); and the fetch check, which is the spec's decision D3. -/
def Obligations.StepRunsTheFetchedInstruction : Prop :=
  ∀ s : State,
    (s.pc.toNat + 1 ≤ 4095 →
      ∃ w : Word, w.toNat = (s.readByte s.pc.toNat).toNat * 256 + (s.readByte (s.pc.toNat + 1)).toNat ∧
        step s = exec (decode w) s) ∧
    (4095 < s.pc.toNat + 1 → step s = .fault .outOfBounds)

/-- R71's extraction formulas and its overlaps, the same for every word. Which fields an instruction uses is
DecodeFollowsTheOpcodeMap. -/
def Obligations.FieldsAreCutFromTheWord : Prop :=
  ∀ w : Word,
    (fieldOp w).toNat = w.toNat >>> 12 ∧ (fieldX w).val = (w.toNat >>> 8) &&& 0xF ∧
    (fieldY w).val = (w.toNat >>> 4) &&& 0xF ∧ (fieldN w).toNat = w.toNat &&& 0xF ∧
    (fieldKK w).toNat = w.toNat &&& 0xFF ∧ (fieldNNN w).toNat = w.toNat &&& 0xFFF ∧
    (fieldKK w).toNat = (fieldY w).val * 16 + (fieldN w).toNat ∧
    (fieldNNN w).toNat = (fieldX w).val * 256 + (fieldKK w).toNat

/-- R75, R76: a word is a row's instruction exactly when it matches the row's mask and pattern, no word matches two
rows, and UNK is the fallback when none of the 35 matches. The masks of families 5 and 9 are the spec's decision D10,
those of family 0 its decision D11. -/
def Obligations.DecodeFollowsTheOpcodeMap : Prop :=
  tableRows.length = 35 ∧
  ∀ w : Word,
    (∀ r ∈ tableRows, (w &&& r.mask = r.pattern ↔ decode w = r.instr w)) ∧
    tableRows.Pairwise (fun r q => ¬ (w &&& r.mask = r.pattern ∧ w &&& q.mask = q.pattern)) ∧
    ((∀ r ∈ tableRows, w &&& r.mask ≠ r.pattern) ↔ decode w = .unk w)

/-- The worked encodings of R83 (which the spec derives from R71 and R75). -/
def Obligations.WorkedEncodingsDecode : Prop :=
  decode 0x6A2F = .ldImm 0xA 0x2F ∧ decode 0xD125 = .drw 1 2 5 ∧ decode 0x8AB4 = .addReg 0xA 0xB ∧
  decode 0xF31E = .addI 3 ∧ decode 0xB2F0 = .jpV0 0x2F0 ∧ decode 0x5AB7 = .seReg 0xA 0xB 7 ∧
  decode 0x8AB9 = .unk 0x8AB9 ∧ decode 0x00FF = .unk 0x00FF ∧ decode 0xE09F = .unk 0xE09F

/-- Every well-formed instruction, with every operand at every value its field admits, is the decoding of its word. -/
def Obligations.DecodeOfEncodeIsTheInstruction : Prop :=
  ∀ i : Instr, i.wf = true → decode (encode i) = i

/-- Every one of the 65536 words decodes to a well-formed instruction, and no bit of it is dropped. That the word comes
back of families 5 and 9, whose low nibble R78 ignores, is the model's choice: seReg and sneReg carry that nibble
(log 10). -/
def Obligations.EncodeOfDecodeIsTheWord : Prop :=
  ∀ w : Word, (decode w).wf = true ∧ encode (decode w) = w

/-- R77's list of the unrecognised words, without its counts (which the spec derives). The whole-word match of family 0
is the spec's decision D11. -/
def Obligations.UnrecognisedWordsAreTheListedOnes : Prop :=
  ∀ w : Word,
    decode w = .unk w ↔
      (w.toNat / 4096 = 0x0 ∧ w.toNat ≠ 0x0000 ∧ w.toNat ≠ 0x00E0 ∧ w.toNat ≠ 0x00EE) ∨
      (w.toNat / 4096 = 0x8 ∧ w.toNat % 16 ∈ [0x8, 0x9, 0xA, 0xB, 0xC, 0xD, 0xF]) ∨
      (w.toNat / 4096 = 0xE ∧ w.toNat % 256 ∉ [0x9E, 0xA1]) ∨
      (w.toNat / 4096 = 0xF ∧ w.toNat % 256 ∉ [0x07, 0x0A, 0x15, 0x18, 0x1E, 0x29, 0x33, 0x55, 0x65])

/-! ## Family 0 and unrecognised words -/

/-- R100: every cell off, dirty always true (the spec's decision D18), nothing else (D12). -/
def Obligations.ClsTurnsEveryCellOff : Prop :=
  ∀ s : State, ∃ t, exec .cls s = .next t ∧ (∀ c, t.fb.cell c = 0) ∧ t.pc = s.pc + 2 ∧ t.Returned .cont true ∧
    Frame (fun l => (∃ c, l = .fb c) ∨ l = .pc ∨ l = .out) s t

/-- R101, R223: the top entry goes to PC and SP falls by one, the vacated slot keeping its value (the spec's decision
D35); with SP = 0, StackFault (D5). -/
def Obligations.RetPopsTheTopEntry : Prop :=
  ∀ s : State,
    (∀ k : RegIdx, k.val + 1 = s.sp.val →
      ∃ t, exec .ret s = .next t ∧ t.pc = s.stack[k] ∧ t.sp.val = k.val ∧ t.Returned .cont false ∧
        Frame (fun l => l = .pc ∨ l = .sp ∨ l = .out) s t) ∧
    (s.sp.val = 0 → exec .ret s = .fault .stackFault)

/-- R102: HALT returns Halt and changes nothing, PC not advanced; and a step that returned Halt is repeated by the next
one, which changes nothing at all (which the spec derives from R200). -/
def Obligations.HaltChangesNothingAndRepeats : Prop :=
  (∀ s : State, ∃ t, exec .halt s = .next t ∧ t.Returned .halt false ∧ Frame (fun l => l = .out) s t) ∧
  (∀ s t : State, step s = .next t → t.out.result = .halt → step t = .next t)

/-- R103: every unrecognised word is a no-op that advances PC by 2. -/
def Obligations.UnrecognisedWordIsANoOp : Prop :=
  ∀ (w : Word) (s : State), ∃ t, exec (.unk w) s = .next t ∧ t.pc = s.pc + 2 ∧ t.Returned .cont false ∧
    Frame (fun l => l = .pc ∨ l = .out) s t

/-! ## Jumps, calls, skips -/

/-- R110. -/
def Obligations.JpGoesToItsAddress : Prop :=
  ∀ (nnn : Addr12) (s : State), ∃ t, exec (.jp nnn) s = .next t ∧ t.pc.toNat = nnn.toNat ∧ t.Returned .cont false ∧
    Frame (fun l => l = .pc ∨ l = .out) s t

/-- R116: the sum is not reduced modulo 4096 (the spec's decision D9). -/
def Obligations.JpV0GoesToTheUnmaskedSum : Prop :=
  ∀ (nnn : Addr12) (s : State), ∃ t, exec (.jpV0 nnn) s = .next t ∧
    t.pc.toNat = (s.readV 0).toNat + nnn.toNat ∧ t.pc.toNat ≤ 0x10FE ∧ t.Returned .cont false ∧
    Frame (fun l => l = .pc ∨ l = .out) s t

/-- R111, R222: PC + 2 is pushed, SP rises by one, PC goes to nnn; with SP = 16, StackFault (the spec's decision D4). -/
def Obligations.CallPushesTheReturnAddress : Prop :=
  ∀ (nnn : Addr12) (s : State),
    (∀ k : RegIdx, k.val = s.sp.val →
      ∃ t, exec (.call nnn) s = .next t ∧ t.stack[k] = s.pc + 2 ∧ t.sp.val = k.val + 1 ∧ t.pc.toNat = nnn.toNat ∧
        t.Returned .cont false ∧ Frame (fun l => l = .stack k ∨ l = .sp ∨ l = .pc ∨ l = .out) s t) ∧
    (s.sp.val = 16 → exec (.call nnn) s = .fault .stackFault)

/-- R24: a return undoes a call, through any state in between that has the stack the call left: PC is the address after
the call, and SP is as before it. -/
def Obligations.ReturnUndoesCall : Prop :=
  ∀ (nnn : Addr12) (s t u : State), exec (.call nnn) s = .next t → u.stack = t.stack → u.sp = t.sp →
    ∃ r, exec .ret u = .next r ∧ r.pc = s.pc + 2 ∧ r.sp = s.sp ∧ Frame (fun l => l = .pc ∨ l = .sp ∨ l = .out) u r

/-- R112, R113. -/
def Obligations.ImmediateSkipsAdvanceByFourOrTwo : Prop :=
  ∀ (x : RegIdx) (kk : Byte) (s : State),
    (∃ t, exec (.seImm x kk) s = .next t ∧ t.pc = s.pc + (if (s.readV x).toNat = kk.toNat then 4 else 2) ∧
      t.Returned .cont false ∧ Frame (fun l => l = .pc ∨ l = .out) s t) ∧
    (∃ t, exec (.sneImm x kk) s = .next t ∧ t.pc = s.pc + (if (s.readV x).toNat ≠ kk.toNat then 4 else 2) ∧
      t.Returned .cont false ∧ Frame (fun l => l = .pc ∨ l = .out) s t)

/-- R114, R115, R78: for every value of the ignored nibble n (the spec's decision D10). -/
def Obligations.RegisterSkipsIgnoreTheLowNibble : Prop :=
  ∀ (x y : RegIdx) (n : Nibble) (s : State),
    (∃ t, exec (.seReg x y n) s = .next t ∧ t.pc = s.pc + (if (s.readV x).toNat = (s.readV y).toNat then 4 else 2) ∧
      t.Returned .cont false ∧ Frame (fun l => l = .pc ∨ l = .out) s t) ∧
    (∃ t, exec (.sneReg x y n) s = .next t ∧ t.pc = s.pc + (if (s.readV x).toNat ≠ (s.readV y).toNat then 4 else 2) ∧
      t.Returned .cont false ∧ Frame (fun l => l = .pc ∨ l = .out) s t)

/-! ## Immediates, index load, random -/

/-- R120, R122. -/
def Obligations.ImmediateLoadsSetTheirRegister : Prop :=
  (∀ (x : RegIdx) (kk : Byte) (s : State), ∃ t, exec (.ldImm x kk) s = .next t ∧ t.readV x = kk ∧ t.pc = s.pc + 2 ∧
    t.Returned .cont false ∧ Frame (fun l => l = .v x ∨ l = .pc ∨ l = .out) s t) ∧
  (∀ (nnn : Addr12) (s : State), ∃ t, exec (.ldI nnn) s = .next t ∧ t.i.toNat = nnn.toNat ∧ t.pc = s.pc + 2 ∧
    t.Returned .cont false ∧ Frame (fun l => l = .i ∨ l = .pc ∨ l = .out) s t)

/-- R121: modulo 256, and VF is no flag of it (the spec's decision D12). -/
def Obligations.AddImmediateWrapsWithoutAFlag : Prop :=
  ∀ (x : RegIdx) (kk : Byte) (s : State), ∃ t, exec (.addImm x kk) s = .next t ∧
    (t.readV x).toNat = ((s.readV x).toNat + kk.toNat) % 256 ∧ t.pc = s.pc + 2 ∧ t.Returned .cont false ∧
    Frame (fun l => l = .v x ∨ l = .pc ∨ l = .out) s t

/-- R123: the random byte masked with kk, whatever byte is drawn (the spec's decision D21; the draw is the free value
Config.randByte of log 1, the model's own form). A bit that is 0 in kk is 0 in the result, and the next draw is
another. -/
def Obligations.RndMasksItsDraw : Prop :=
  ∀ (x : RegIdx) (kk : Byte) (s : State), ∃ t, exec (.rnd x kk) s = .next t ∧
    t.readV x = Config.randByte s.draws &&& kk ∧ (t.readV x).toNat ≤ kk.toNat ∧
    (∀ b : Nat, kk.getLsbD b = false → (t.readV x).getLsbD b = false) ∧ t.draws = s.draws + 1 ∧ t.pc = s.pc + 2 ∧
    t.Returned .cont false ∧ Frame (fun l => l = .v x ∨ l = .draws ∨ l = .pc ∨ l = .out) s t

/-! ## ALU -/

/-- R131. -/
def Obligations.CopyMovesVyToVx : Prop :=
  ∀ (x y : RegIdx) (s : State), ∃ t, exec (.ldReg x y) s = .next t ∧ t.readV x = s.readV y ∧ t.pc = s.pc + 2 ∧
    t.Returned .cont false ∧ Frame (fun l => l = .v x ∨ l = .pc ∨ l = .out) s t

/-- R132, R133, R134: bit by bit, and VF is no flag of them (the spec's decision D12). -/
def Obligations.LogicWorksBitByBitWithoutAFlag : Prop :=
  ∀ (x y : RegIdx) (s : State),
    (∃ t, exec (.orReg x y) s = .next t ∧
      (∀ b : Nat, (t.readV x).getLsbD b = ((s.readV x).getLsbD b || (s.readV y).getLsbD b)) ∧ t.pc = s.pc + 2 ∧
      t.Returned .cont false ∧ Frame (fun l => l = .v x ∨ l = .pc ∨ l = .out) s t) ∧
    (∃ t, exec (.andReg x y) s = .next t ∧
      (∀ b : Nat, (t.readV x).getLsbD b = ((s.readV x).getLsbD b && (s.readV y).getLsbD b)) ∧ t.pc = s.pc + 2 ∧
      t.Returned .cont false ∧ Frame (fun l => l = .v x ∨ l = .pc ∨ l = .out) s t) ∧
    (∃ t, exec (.xorReg x y) s = .next t ∧
      (∀ b : Nat, (t.readV x).getLsbD b = ((s.readV x).getLsbD b != (s.readV y).getLsbD b)) ∧ t.pc = s.pc + 2 ∧
      t.Returned .cont false ∧ Frame (fun l => l = .v x ∨ l = .pc ∨ l = .out) s t)

/-- R135: the sum modulo 256, and VF the carry out; with x = 15 the result is written last and the carry is lost (the
spec's decision D2). -/
def Obligations.AddSetsCarryUnlessVxIsVF : Prop :=
  ∀ (x y : RegIdx) (s : State), ∃ t, exec (.addReg x y) s = .next t ∧
    (t.readV x).toNat = ((s.readV x).toNat + (s.readV y).toNat) % 256 ∧
    (x ≠ 15 → t.readV 15 = if (s.readV x).toNat + (s.readV y).toNat > 255 then 1 else 0) ∧ t.pc = s.pc + 2 ∧
    t.Returned .cont false ∧ Frame (fun l => l = .v x ∨ l = .v 15 ∨ l = .pc ∨ l = .out) s t

/-- R136, R138: the two subtractions, the wrap of R130 (c), and their flags, which differ at equality; with x = 15 the
result is written last and VF ends as it (the spec's decision D2). -/
def Obligations.SubtractionsWrapAndFlag : Prop :=
  ∀ (x y : RegIdx) (s : State),
    (∃ t, exec (.subReg x y) s = .next t ∧
      (t.readV x).toNat = (if (s.readV y).toNat ≤ (s.readV x).toNat then (s.readV x).toNat - (s.readV y).toNat
        else (s.readV x).toNat + 256 - (s.readV y).toNat) ∧
      (x ≠ 15 → t.readV 15 = if (s.readV x).toNat > (s.readV y).toNat then 1 else 0) ∧ t.pc = s.pc + 2 ∧
      t.Returned .cont false ∧ Frame (fun l => l = .v x ∨ l = .v 15 ∨ l = .pc ∨ l = .out) s t) ∧
    (∃ t, exec (.subnReg x y) s = .next t ∧
      (t.readV x).toNat = (if (s.readV x).toNat ≤ (s.readV y).toNat then (s.readV y).toNat - (s.readV x).toNat
        else (s.readV y).toNat + 256 - (s.readV x).toNat) ∧
      (x ≠ 15 → t.readV 15 = if (s.readV x).toNat > (s.readV y).toNat then 0 else 1) ∧ t.pc = s.pc + 2 ∧
      t.Returned .cont false ∧ Frame (fun l => l = .v x ∨ l = .v 15 ∨ l = .pc ∨ l = .out) s t)

/-- R137, R139: the value shifted is Vy, the flag is the bit shifted out, written last, so with x = 15 the shifted value
is lost (the spec's decision D2). -/
def Obligations.ShiftsReadVyAndWriteTheFlagLast : Prop :=
  ∀ (x y : RegIdx) (s : State),
    (∃ t, exec (.shrReg x y) s = .next t ∧ (x ≠ 15 → (t.readV x).toNat = (s.readV y).toNat / 2) ∧
      (t.readV 15).toNat = (s.readV y).toNat % 2 ∧ t.pc = s.pc + 2 ∧
      t.Returned .cont false ∧ Frame (fun l => l = .v x ∨ l = .v 15 ∨ l = .pc ∨ l = .out) s t) ∧
    (∃ t, exec (.shlReg x y) s = .next t ∧ (x ≠ 15 → (t.readV x).toNat = (s.readV y).toNat * 2 % 256) ∧
      (t.readV 15).toNat = (s.readV y).toNat / 128 ∧ t.pc = s.pc + 2 ∧
      t.Returned .cont false ∧ Frame (fun l => l = .v x ∨ l = .v 15 ∨ l = .pc ∨ l = .out) s t)

/-- R21, R36 (e) (which the spec derives): after any of the six instructions that write VF as a flag, VF is 0 or 1,
unless x = 15 made a later result write replace it. -/
def Obligations.FlagWritersLeaveZeroOrOne : Prop :=
  ∀ (x y : RegIdx) (n : Nibble) (i : Instr) (s t : State), exec i s = .next t →
    (i = .shrReg x y ∨ i = .shlReg x y ∨ i = .drw x y n ∨
      (x ≠ 15 ∧ (i = .addReg x y ∨ i = .subReg x y ∨ i = .subnReg x y))) →
    t.readV 15 = 0 ∨ t.readV 15 = 1

/-! ## Draw -/

/-- R150, R152, R153, R154, R156: in range, every cell a 1 bit of the sprite lands on is toggled (a lit cell of any
colour goes off, a cell that was off takes the draw colour), every other cell is unchanged, VF is the collision, dirty
says whether any bit was 1 (the spec's decision D18), and height 0 draws nothing (D13). Operands are sampled first
(D2). The framebuffer is in the model's canonical form, an invariant of every step. -/
def Obligations.DrawTogglesTheCellsItCovers : Prop :=
  ∀ (x y : RegIdx) (n : Nibble) (s : State), s.fb.wf = true → s.i.toNat + n.toNat ≤ 4096 →
    ∃ t, exec (.drw x y n) s = .next t ∧
      (∀ c, s.SpriteCovers x y n c → t.fb.cell c = if s.fb.cell c = 0 then drawColour s.params s.ov s.i else 0) ∧
      ((∃ c, s.SpriteCovers x y n c ∧ s.fb.cell c ≠ 0) → t.readV 15 = 1) ∧
      ((∀ c, s.SpriteCovers x y n c → s.fb.cell c = 0) → t.readV 15 = 0) ∧
      ((∃ c, s.SpriteCovers x y n c) → t.Returned .cont true) ∧
      ((∀ c, ¬ s.SpriteCovers x y n c) → t.Returned .cont false) ∧ t.pc = s.pc + 2 ∧
      Frame (fun l => (∃ c, s.SpriteCovers x y n c ∧ l = .fb c) ∨ l = .v 15 ∨ l = .pc ∨ l = .out) s t

/-- R151: DEFAULT_FG with fewer than two records; else the colour of the first record from index 2 on whose address is
I (the spec's decision D14), or record 1's; red high, blue low (D15). -/
def Obligations.DrawColourIsTheFirstMatchingRecord : Prop :=
  ∀ (p : Config.Params) (ov : List OverlayRec) (i0 : Word),
    (ov.length < 2 → drawColour p ov i0 = p.defaultFg) ∧
    (∀ (k : Nat) (hk : k < ov.length), 2 ≤ k → (ov[k]).addr = i0 →
      (∀ (j : Nat) (hj : j < k), 2 ≤ j → (ov[j]).addr ≠ i0) →
      (drawColour p ov i0).toNat = (ov[k]).r.toNat * 65536 + (ov[k]).g.toNat * 256 + (ov[k]).b.toNat) ∧
    (∀ h : 1 < ov.length, (∀ (k : Nat) (hk : k < ov.length), 2 ≤ k → (ov[k]).addr ≠ i0) →
      (drawColour p ov i0).toNat = (ov[1]).r.toNat * 65536 + (ov[1]).g.toNat * 256 + (ov[1]).b.toNat)

/-- S4, R153: the same sprite drawn twice at the same place in a colour that is lit restores whether each cell is lit.
Its colour: a cell the sprite does not cover keeps it, a covered cell that was off ends off, a covered cell that was lit
ends in the draw colour. The second draw collides exactly when the first lit a cell, that is when a covered cell was
off. On an all-off framebuffer every cell is off again. Between the two draws the state `u` may differ in anything the
draw does not read. -/
def Obligations.DrawingTwiceErases : Prop :=
  ∀ (x y : RegIdx) (n : Nibble) (s t u : State), s.fb.wf = true → drawColour s.params s.ov s.i ≠ 0 →
    exec (.drw x y n) s = .next t →
    u.fb = t.fb → u.i = s.i → u.readV x = s.readV x → u.readV y = s.readV y → u.params = s.params → u.ov = s.ov →
    (∀ a, u.readByte a = s.readByte a) →
    ∃ w, exec (.drw x y n) u = .next w ∧ (∀ c, lit (w.fb.cell c) = lit (s.fb.cell c)) ∧
      (∀ c, ¬ s.SpriteCovers x y n c → w.fb.cell c = s.fb.cell c) ∧
      (∀ c, s.SpriteCovers x y n c →
        w.fb.cell c = if s.fb.cell c = 0 then 0 else drawColour s.params s.ov s.i) ∧
      (w.readV 15 = 1 ↔ ∃ c, s.SpriteCovers x y n c ∧ s.fb.cell c = 0) ∧
      (w.readV 15 = 0 ↔ ∀ c, s.SpriteCovers x y n c → s.fb.cell c ≠ 0) ∧
      ((∀ c, s.fb.cell c = 0) →
        (∀ c, w.fb.cell c = 0) ∧ (w.readV 15 = 1 ↔ ∃ c, t.fb.cell c ≠ 0) ∧ (w.readV 15 = 0 ↔ ∀ c, t.fb.cell c = 0))

/-! ## Keypad -/

/-- R160, R161: the key the low four bits of Vx select, as it is now. -/
def Obligations.KeySkipsTestTheSelectedKey : Prop :=
  ∀ (x k : RegIdx) (s : State), k.val = (s.readV x).toNat % 16 →
    (∃ t, exec (.skp x) s = .next t ∧ t.pc = s.pc + (if s.key[k] = true then 4 else 2) ∧ t.Returned .cont false ∧
      Frame (fun l => l = .pc ∨ l = .out) s t) ∧
    (∃ t, exec (.sknp x) s = .next t ∧ t.pc = s.pc + (if s.key[k] = false then 4 else 2) ∧ t.Returned .cont false ∧
      Frame (fun l => l = .pc ∨ l = .out) s t)

/-- R162: the lowest pressed key (the spec's decision D32) and PC + 2; with no key down nothing changes. -/
def Obligations.KeyWaitTakesTheLowestPressedKey : Prop :=
  ∀ (x : RegIdx) (s : State),
    (∀ k : RegIdx, s.key[k] = true → (∀ j : RegIdx, j < k → s.key[j] = false) →
      ∃ t, exec (.ldVxK x) s = .next t ∧ (t.readV x).toNat = k.val ∧ t.pc = s.pc + 2 ∧ t.Returned .cont false ∧
        Frame (fun l => l = .v x ∨ l = .pc ∨ l = .out) s t) ∧
    ((∀ k : RegIdx, s.key[k] = false) →
      ∃ t, exec (.ldVxK x) s = .next t ∧ t.Returned .cont false ∧ Frame (fun l => l = .out) s t)

/-- R162, R260: while no key is down a program that waits for one stays on the instruction, whatever number of steps and
ticks the host issues; only the timers and the outputs of the step change. -/
def Obligations.KeyWaitHoldsUntilAKeyIsPressed : Prop :=
  ∀ (x : RegIdx) (w : Word) (s : State) (ts : List Transaction), s.fetch = some w → decode w = .ldVxK x →
    (∀ k : RegIdx, s.key[k] = false) → (∀ tx ∈ ts, tx = .step ∨ tx = .tick) →
    ∃ t, transactAll ts s = .next t ∧ step t = exec (.ldVxK x) t ∧
      Frame (fun l => l = .dt ∨ l = .st ∨ l = .out) s t

/-! ## Timers, index, memory blocks -/

/-- R170, R171, R172. -/
def Obligations.TimerMovesCopyTheRegister : Prop :=
  ∀ (x : RegIdx) (s : State),
    (∃ t, exec (.ldVxDt x) s = .next t ∧ t.readV x = s.dt ∧ t.pc = s.pc + 2 ∧ t.Returned .cont false ∧
      Frame (fun l => l = .v x ∨ l = .pc ∨ l = .out) s t) ∧
    (∃ t, exec (.ldDt x) s = .next t ∧ t.dt = s.readV x ∧ t.pc = s.pc + 2 ∧ t.Returned .cont false ∧
      Frame (fun l => l = .dt ∨ l = .pc ∨ l = .out) s t) ∧
    (∃ t, exec (.ldSt x) s = .next t ∧ t.st = s.readV x ∧ t.pc = s.pc + 2 ∧ t.Returned .cont false ∧
      Frame (fun l => l = .st ∨ l = .pc ∨ l = .out) s t)

/-- R173: modulo 65536 (the spec's decision D8), VF untouched (D12). -/
def Obligations.AddIWrapsAtSixteenBits : Prop :=
  ∀ (x : RegIdx) (s : State), ∃ t, exec (.addI x) s = .next t ∧
    t.i.toNat = (s.i.toNat + (s.readV x).toNat) % 65536 ∧ t.pc = s.pc + 2 ∧ t.Returned .cont false ∧
    Frame (fun l => l = .i ∨ l = .pc ∨ l = .out) s t

/-- R174: all 8 bits of Vx are used. -/
def Obligations.GlyphAddressIsFiveTimesVx : Prop :=
  ∀ (x : RegIdx) (s : State), ∃ t, exec (.ldF x) s = .next t ∧ t.i.toNat = (s.readV x).toNat * 5 ∧
    t.pc = s.pc + 2 ∧ t.Returned .cont false ∧ Frame (fun l => l = .i ∨ l = .pc ∨ l = .out) s t

/-- R175: in range, the three digits at I, I + 1, I + 2, every other byte unchanged; out of range, OutOfBounds (with
nothing changed, the spec's decision D6). Memory is in the model's canonical form, an invariant of every step. -/
def Obligations.BcdStoresThreeDigits : Prop :=
  ∀ (x : RegIdx) (s : State), s.mem.wf s.params = true →
    (s.i.toNat + 2 < 4096 →
      ∃ t, exec (.ldB x) s = .next t ∧
        (t.readByte s.i.toNat).toNat = (s.readV x).toNat / 100 ∧
        (t.readByte (s.i.toNat + 1)).toNat = (s.readV x).toNat / 10 % 10 ∧
        (t.readByte (s.i.toNat + 2)).toNat = (s.readV x).toNat % 10 ∧ t.pc = s.pc + 2 ∧ t.Returned .cont false ∧
        Frame (fun l => (∃ a, s.i.toNat ≤ a ∧ a ≤ s.i.toNat + 2 ∧ l = .mem a) ∨ l = .pc ∨ l = .out) s t) ∧
    (4096 ≤ s.i.toNat + 2 → exec (.ldB x) s = .fault .outOfBounds)

/-- R176: in range, V0..Vx at I..I + x, every other byte unchanged, I unchanged (the spec's decision D12); out of range,
OutOfBounds (with nothing changed, D6). -/
def Obligations.StoreWritesTheRegisterBlock : Prop :=
  ∀ (x : RegIdx) (s : State), s.mem.wf s.params = true →
    (s.i.toNat + x.val < 4096 →
      ∃ t, exec (.storeRegs x) s = .next t ∧
        (∀ k : RegIdx, k ≤ x → t.readByte (s.i.toNat + k.val) = s.readV k) ∧ t.pc = s.pc + 2 ∧
        t.Returned .cont false ∧
        Frame (fun l => (∃ a, s.i.toNat ≤ a ∧ a ≤ s.i.toNat + x.val ∧ l = .mem a) ∨ l = .pc ∨ l = .out) s t) ∧
    (4096 ≤ s.i.toNat + x.val → exec (.storeRegs x) s = .fault .outOfBounds)

/-- R177: in range, I..I + x to V0..Vx, every other register, I (the spec's decision D12) and all of memory unchanged;
out of range, OutOfBounds (with nothing changed, D6). -/
def Obligations.LoadReadsTheRegisterBlock : Prop :=
  ∀ (x : RegIdx) (s : State),
    (s.i.toNat + x.val < 4096 →
      ∃ t, exec (.loadRegs x) s = .next t ∧
        (∀ k : RegIdx, k ≤ x → t.readV k = s.readByte (s.i.toNat + k.val)) ∧ t.pc = s.pc + 2 ∧
        t.Returned .cont false ∧ Frame (fun l => (∃ k : RegIdx, k ≤ x ∧ l = .v k) ∨ l = .pc ∨ l = .out) s t) ∧
    (4096 ≤ s.i.toNat + x.val → exec (.loadRegs x) s = .fault .outOfBounds)

/-- S7: a block store, then a block load with the same I and x from any state that has the memory the store left,
restores the registers the store took. -/
def Obligations.StoreThenLoadRestoresRegisters : Prop :=
  ∀ (x : RegIdx) (s t u : State), s.mem.wf s.params = true → exec (.storeRegs x) s = .next t →
    (∀ a, u.readByte a = t.readByte a) → u.i = s.i →
    ∃ w, exec (.loadRegs x) u = .next w ∧ (∀ k : RegIdx, k ≤ x → w.readV k = s.readV k) ∧
      (∀ k : RegIdx, x < k → w.readV k = u.readV k)

/-- R60 (which the spec derives): the bytes a block store writes are what the very next fetch reads. -/
def Obligations.StoredBytesAreFetchedNext : Prop :=
  ∀ (x k j : RegIdx) (s t : State), s.mem.wf s.params = true → exec (.storeRegs x) s = .next t →
    j.val = k.val + 1 → j ≤ x → t.pc.toNat = s.i.toNat + k.val →
    ∃ w : Word, w.toNat = (s.readV k).toNat * 256 + (s.readV j).toNat ∧ step t = exec (decode w) t

/-! ## Faults -/

/-- R221, R222, R223, R225, R227: an instruction faults exactly under the listed conditions (the spec's decisions D4, D5,
D7), and completes in every other case; nothing is refused. -/
def Obligations.InstructionsStopExactlyWhenListed : Prop :=
  ∀ (i : Instr) (s : State),
    (exec i s = .fault .stackFault ↔
      (i = .ret ∧ s.sp.val = 0) ∨ (∃ nnn, i = .call nnn ∧ s.sp.val = 16)) ∧
    (exec i s = .fault .outOfBounds ↔
      (∃ x y n, i = .drw x y n ∧ 4096 < s.i.toNat + n.toNat) ∨ (∃ x, i = .ldB x ∧ 4096 ≤ s.i.toNat + 2) ∨
      (∃ x, i = .storeRegs x ∧ 4096 ≤ s.i.toNat + x.val) ∨ (∃ x, i = .loadRegs x ∧ 4096 ≤ s.i.toNat + x.val)) ∧
    ((∃ t, exec i s = .next t) ↔ exec i s ≠ .fault .stackFault ∧ exec i s ≠ .fault .outOfBounds)

/-- R224 (the spec's decision D6): a faulting step, as the host's transaction, reports the fault's code with dirty false
and changes no state. -/
def Obligations.FaultingStepLeavesNoTrace : Prop :=
  ∀ (s : State) (f : Fault), step s = .fault f →
    ∃ t, transact .step s = .next (t, .stepped f.code false) ∧ t.Returned f.code false ∧ Frame (fun l => l = .out) s t

/-- R230 (which the spec derives): after a fault, any number of steps, ticks, key polls and framebuffer reads later, a
step faults the same way. -/
def Obligations.FaultRepeatsWhateverTheHostPolls : Prop :=
  ∀ (s : State) (f : Fault) (ts : List Transaction), step s = .fault f →
    (∀ tx ∈ ts, tx = .step ∨ tx = .tick ∨ (∃ k, tx = .setKeys k) ∨ (∃ c, tx = .fbRead c)) →
    ∃ t, transactAll ts s = .next t ∧ step t = .fault f

/-! ## Whole-machine rules -/

/-- R35, the written-by column for instructions, row by row: a location changes only under an instruction listed for it,
and no instruction writes KEY or OV. That none writes a parameter or the load record, and which one draws, is said of
the model's own fields (logs 1, 6). -/
def Obligations.OnlyListedInstructionsWrite : Prop :=
  ∀ (i : Instr) (s t : State), s.mem.wf s.params = true → s.fb.wf = true → exec i s = .next t →
    (t.key = s.key ∧ t.ov = s.ov ∧ t.params = s.params ∧ t.loaded = s.loaded) ∧
    (∀ r : RegIdx, t.readV r ≠ s.readV r →
      (∃ kk, i = .ldImm r kk ∨ i = .addImm r kk ∨ i = .rnd r kk) ∨
      (∃ y, i = .ldReg r y ∨ i = .orReg r y ∨ i = .andReg r y ∨ i = .xorReg r y ∨ i = .addReg r y ∨ i = .subReg r y ∨
        i = .shrReg r y ∨ i = .subnReg r y ∨ i = .shlReg r y) ∨
      i = .ldVxDt r ∨ i = .ldVxK r ∨ (∃ x, r ≤ x ∧ i = .loadRegs x) ∨
      (r = 15 ∧ ((∃ x y, i = .addReg x y ∨ i = .subReg x y ∨ i = .shrReg x y ∨ i = .subnReg x y ∨ i = .shlReg x y) ∨
        ∃ x y n, i = .drw x y n))) ∧
    (t.pc ≠ s.pc → i ≠ .halt) ∧
    ((∃ k : RegIdx, t.stack[k] ≠ s.stack[k]) → ∃ nnn, i = .call nnn) ∧
    (t.sp ≠ s.sp → i = .ret ∨ ∃ nnn, i = .call nnn) ∧
    (t.i ≠ s.i → (∃ nnn, i = .ldI nnn) ∨ (∃ x, i = .addI x) ∨ (∃ x, i = .ldF x)) ∧
    (t.dt ≠ s.dt → ∃ x, i = .ldDt x) ∧ (t.st ≠ s.st → ∃ x, i = .ldSt x) ∧
    ((∃ c, t.fb.cell c ≠ s.fb.cell c) → i = .cls ∨ ∃ x y n, i = .drw x y n) ∧
    ((∃ a, t.readByte a ≠ s.readByte a) → (∃ x, i = .ldB x) ∨ (∃ x, i = .storeRegs x)) ∧
    (t.draws ≠ s.draws → ∃ x kk, i = .rnd x kk)

/-- R35, the read-by column for KEY, DT, ST and OV: an instruction not listed as a reader (or as a writer) of one of
them does the same whatever it holds. -/
def Obligations.OnlyListedInstructionsRead : Prop :=
  ∀ (i : Instr) (s : State),
    (∀ k : Vector Bool 16, (∀ x, i ≠ .skp x ∧ i ≠ .sknp x ∧ i ≠ .ldVxK x) →
      exec i (setKeys k s) = mapNext (setKeys k) (exec i s)) ∧
    (∀ b : Byte, (∀ x, i ≠ .ldVxDt x ∧ i ≠ .ldDt x) → exec i (s.writeDt b) = mapNext (fun t => t.writeDt b) (exec i s)) ∧
    (∀ b : Byte, (∀ x, i ≠ .ldSt x) → exec i (s.writeSt b) = mapNext (fun t => t.writeSt b) (exec i s)) ∧
    (∀ ov : List OverlayRec, (∀ x y n, i ≠ .drw x y n) →
      exec i { s with ov := ov } = mapNext (fun t => { t with ov := ov }) (exec i s))

/-- R23: PC stays (HALT, and Fx0A with no key down), advances by 2, advances by 4 under a skip, or goes where a jump, a
call or a return sends it. -/
def Obligations.PcMovesOnlyAsListed : Prop :=
  ∀ (i : Instr) (s t : State), exec i s = .next t →
    (t.pc = s.pc + 2) ∨
    (t.pc = s.pc ∧ (i = .halt ∨ ∃ x, i = .ldVxK x)) ∨
    (t.pc = s.pc + 4 ∧ ((∃ x kk, i = .seImm x kk) ∨ (∃ x kk, i = .sneImm x kk) ∨ (∃ x y n, i = .seReg x y n) ∨
      (∃ x y n, i = .sneReg x y n) ∨ (∃ x, i = .skp x) ∨ (∃ x, i = .sknp x))) ∨
    (∃ nnn, (i = .jp nnn ∨ i = .call nnn) ∧ t.pc.toNat = nnn.toNat) ∨
    (∃ nnn, i = .jpV0 nnn ∧ t.pc.toNat = (s.readV 0).toNat + nnn.toNat) ∨
    (i = .ret ∧ ∃ k : RegIdx, k.val + 1 = s.sp.val ∧ t.pc = s.stack[k])

/-- R205, R266 (the spec's decision D18): dirty is true exactly for 00E0 and for a Dxyn with a 1 bit, and where it is
false no cell has changed. -/
def Obligations.DirtyReportsEveryFramebufferChange : Prop :=
  ∀ (i : Instr) (s t : State), s.fb.wf = true → exec i s = .next t →
    (t.out.dirty = true ↔ i = .cls ∨ ∃ x y n, i = .drw x y n ∧ ∃ c, s.SpriteCovers x y n c) ∧
    (t.out.dirty = false → ∀ c, t.fb.cell c = s.fb.cell c)

/-- Every step keeps the invariants of R36 and the canonical forms, from every state that meets them. -/
def Obligations.StepKeepsTheInvariants : Prop :=
  ∀ s t : State, s.Inv → step s = .next t → t.Inv

/-- The reset state meets the invariants, whatever parameters R4 allows, the default ones (logs 2, 3) among them. -/
def Obligations.ResetMeetsTheInvariants : Prop :=
  (∀ p : Config.Params, p.defaultFg ≠ 0 → (State.resetWith p).Inv) ∧ State.reset.Inv

/-- R36 (which the spec derives): the invariants hold in every state reachable from reset by the transactions of the
host, in any interleaving; so PC never wraps. -/
def Obligations.ReachableStatesMeetTheInvariants : Prop :=
  ∀ s : State, Reachable s → s.Inv

/-! ## Reset, load, tick, keys -/

/-- R32, R250: the values reset leaves, for any parameters; memory is FONT and then zeros. The values of the model's own
fields are not stated. -/
def Obligations.ResetLeavesTheListedValues : Prop :=
  ∀ p : Config.Params,
    (∀ x, (State.resetWith p).readV x = 0) ∧ (State.resetWith p).i = 0 ∧ (State.resetWith p).pc = 0 ∧
    (State.resetWith p).sp = 0 ∧ (∀ k : RegIdx, (State.resetWith p).stack[k] = 0) ∧ (State.resetWith p).dt = 0 ∧
    (State.resetWith p).st = 0 ∧ (∀ k : RegIdx, (State.resetWith p).key[k] = false) ∧
    (∀ c, (State.resetWith p).fb.cell c = 0) ∧ (State.resetWith p).ov = [] ∧
    (∀ (a : Nat) (h : a < 80), (State.resetWith p).readByte a = p.font[a]) ∧
    (∀ a, 80 ≤ a → (State.resetWith p).readByte a = 0)

/-- R233: each timer down by one when above zero, and no other effect. -/
def Obligations.TickLowersNonzeroTimersByOne : Prop :=
  ∀ s : State, ∃ t, transact .tick s = .next (t, .done) ∧
    t.dt.toNat = (if s.dt.toNat > 0 then s.dt.toNat - 1 else s.dt.toNat) ∧
    t.st.toNat = (if s.st.toNat > 0 then s.st.toNat - 1 else s.st.toNat) ∧ Frame (fun l => l = .dt ∨ l = .st) s t

/-- R234 (which the spec derives): after n ticks a timer that held v holds max(0, v - n). -/
def Obligations.TimersCountDownToZero : Prop :=
  ∀ (n : Nat) (s : State), ∃ t, transactAll (List.replicate n .tick) s = .next t ∧
    (t.dt.toNat : Int) = max 0 ((s.dt.toNat : Int) - n) ∧ (t.st.toNat : Int) = max 0 ((s.st.toNat : Int) - n) ∧
    Frame (fun l => l = .dt ∨ l = .st) s t

/-- R209: all sixteen flags are replaced at once, and nothing else. -/
def Obligations.SetKeysReplacesAllFlags : Prop :=
  ∀ (k : Vector Bool 16) (s : State), ∃ t, transact (.setKeys k) s = .next (t, .done) ∧
    (∀ j : RegIdx, t.key[j] = k[j]) ∧ Frame (fun l => ∃ j, l = .key j) s t

/-- R252, R254: an oversized program is a LoadError that changes nothing at all; else the bytes go to 0x200 and upward,
PC to 0x200, OV to the accepted overlay, and nothing else changes but the model's own record of the load (log 6). A
second load is refused (the spec's decision D26). Length 0 is accepted (D27). -/
def Obligations.LoadPlacesTheProgramOrChangesNothing : Prop :=
  ∀ (bytes : List Byte) (overlay : Option (List OverlayRec)) (s : State), s.mem.wf s.params = true →
    (s.loaded = false → 0xE00 < bytes.length → transact (.load bytes overlay) s = .next (s, .loadError)) ∧
    (s.loaded = false → bytes.length ≤ 0xE00 →
      ∃ t, transact (.load bytes overlay) s = .next (t, .loadOk) ∧
        (∀ (k : Nat) (hk : k < bytes.length), t.readByte (0x200 + k) = bytes[k]) ∧ t.pc.toNat = 0x200 ∧
        (∀ recs, overlay = some recs → 2 ≤ recs.length → t.ov = recs) ∧
        (∀ recs, overlay = some recs → recs.length < 2 → t.ov = []) ∧ (overlay = none → t.ov = []) ∧
        t.loaded = true ∧
        Frame (fun l => (∃ k, k < bytes.length ∧ l = .mem (0x200 + k)) ∨ l = .pc ∨ l = .ov ∨ l = .loaded) s t) ∧
    (s.loaded = true → transact (.load bytes overlay) s = .refused .reloadNotSupported)

/-- R256 (which the spec derives): the launch state, after reset, any key polls, and a load of a program of at most
0xE00 bytes: FONT, zeros, the program, zeros; PC at 0x200; the overlay as accepted; the rest as reset left it, the keys
as last set. -/
def Obligations.LaunchStateAfterResetAndLoad : Prop :=
  ∀ (p : Config.Params) (keys : Vector Bool 16) (bytes : List Byte) (overlay : Option (List OverlayRec)),
    bytes.length ≤ 0xE00 →
    ∃ t, transactAll [.setKeys keys, .load bytes overlay] (State.resetWith p) = .next t ∧
      (∀ (a : Nat) (h : a < 80), t.readByte a = p.font[a]) ∧ (∀ a, 80 ≤ a → a < 0x200 → t.readByte a = 0) ∧
      (∀ (k : Nat) (hk : k < bytes.length), t.readByte (0x200 + k) = bytes[k]) ∧
      (∀ a, 0x200 + bytes.length ≤ a → t.readByte a = 0) ∧ t.pc.toNat = 0x200 ∧ (∀ x, t.readV x = 0) ∧ t.i = 0 ∧
      t.sp = 0 ∧ (∀ k : RegIdx, t.stack[k] = 0) ∧ t.dt = 0 ∧ t.st = 0 ∧ (∀ c, t.fb.cell c = 0) ∧
      (∀ recs, overlay = some recs → 2 ≤ recs.length → t.ov = recs) ∧
      (∀ recs, overlay = some recs → recs.length < 2 → t.ov = []) ∧ (overlay = none → t.ov = []) ∧ t.key = keys

/-- R253, S10: the address of an overlay record is its first two bytes, big-endian, and then red, green, blue. -/
def Obligations.OverlayRecordAddressIsBigEndian : Prop :=
  ∀ b0 b1 b2 b3 b4 : Byte,
    (overlayRecOfBytes b0 b1 b2 b3 b4).addr.toNat = b0.toNat * 256 + b1.toNat ∧
    (overlayRecOfBytes b0 b1 b2 b3 b4).r = b2 ∧ (overlayRecOfBytes b0 b1 b2 b3 b4).g = b3 ∧
    (overlayRecOfBytes b0 b1 b2 b3 b4).b = b4

/-! ## The end of a run -/

/-- R211 (the spec's decision D23): a run that ends, ends in a state in which a step returns Halt and changes nothing,
and it ends there whatever more steps are allowed. -/
def Obligations.RunsEndOnlyInHalt : Prop :=
  ∀ (n m : Nat) (s t : State), runsToHalt n s = some t →
    t.out.result = .halt ∧ step t = .next t ∧ runsToHalt (n + m) s = some t

/-- R211 (the spec's decision D23), for a host that issues any transactions in any order. A run ends in `t` exactly when
some step of it is the first to return anything but `Continue`, and returns `Halt` in `t`; the final state is the state
at that step, which the step did not change. It faults exactly when that first step returns a fault. It has not ended
exactly when its transactions complete and every step of it returned `Continue`. -/
def Obligations.RunEndsAtTheFirstStepThatIsNotContinue : Prop :=
  ∀ (ts : List Transaction) (s : State),
    (∀ t, runHost ts s = .ended t ↔
      ∃ pre post u, ts = pre ++ .step :: post ∧ runHost pre s = .running u ∧ step u = .next t ∧
        t.out.result = .halt ∧ Frame (fun l => l = .out) u t) ∧
    (∀ f, runHost ts s = .faulted f ↔
      ∃ pre post u, ts = pre ++ .step :: post ∧ runHost pre s = .running u ∧ step u = .fault f) ∧
    (∀ u, runHost ts s = .running u ↔
      transactAll ts s = .next u ∧
        ∀ pre post, ts = pre ++ .step :: post →
          ∃ w v, transactAll pre s = .next w ∧ step w = .next v ∧ v.out.result = .cont)

/-- Every transaction of the host, not only a step, keeps the invariants of R36 and the canonical forms, from every
state that meets them. -/
def Obligations.TransactionsKeepTheInvariants : Prop :=
  ∀ (tx : Transaction) (s t : State) (r : Reply), s.Inv → transact tx s = .next (t, r) → t.Inv
end

