-- ==== Sys2Proof/Laws/Decode.lean ====
section
/-! SUPPORT. The fields of the packed words, and that a word is its own fields packed: the small lemmas the round trips
between `encode` and `decode` rest on. All of it is arithmetic on the word's number. -/

namespace Sys2Proof

/-- Two words one after the other, as numbers. -/
theorem append_toNat {a b : Nat} (u : BitVec a) (v : BitVec b) : (u ++ v).toNat = u.toNat * 2 ^ b + v.toNat := by
  rw [BitVec.toNat_append, ← Nat.shiftLeft_add_eq_or_of_lt v.isLt, Nat.shiftLeft_eq]

/-! ## Packed words and fields as numbers -/

section numbers
variable (op : Nibble) (x y : RegIdx) (n : Nibble) (kk : Byte) (nnn : Addr12) (w : Word)

@[simp] theorem regBits_toNat : (regBits x).toNat = x.val := rfl

theorem packXYN_toNat :
    (packXYN op x y n).toNat = op.toNat * 4096 + x.val * 256 + y.val * 16 + n.toNat := by
  simp only [packXYN, append_toNat, regBits_toNat]; omega

theorem packXK_toNat : (packXK op x kk).toNat = op.toNat * 4096 + x.val * 256 + kk.toNat := by
  simp only [packXK, append_toNat, regBits_toNat]; omega

theorem packA_toNat : (packA op nnn).toNat = op.toNat * 4096 + nnn.toNat := by
  simp only [packA, append_toNat]; omega

theorem fieldOp_toNat : (fieldOp w).toNat = w.toNat / 4096 := by
  have h := w.isLt
  simp only [fieldOp, BitVec.extractLsb'_toNat, Nat.shiftRight_eq_div_pow]; omega

theorem fieldX_val : (fieldX w).val = w.toNat / 256 % 16 := by
  have h : (fieldX w).val = (w.extractLsb' 8 4).toNat := rfl
  simp only [h, BitVec.extractLsb'_toNat, Nat.shiftRight_eq_div_pow]

theorem fieldY_val : (fieldY w).val = w.toNat / 16 % 16 := by
  have h : (fieldY w).val = (w.extractLsb' 4 4).toNat := rfl
  simp only [h, BitVec.extractLsb'_toNat, Nat.shiftRight_eq_div_pow]

theorem fieldN_toNat : (fieldN w).toNat = w.toNat % 16 := by
  simp only [fieldN, BitVec.extractLsb'_toNat, Nat.shiftRight_eq_div_pow]; omega

theorem fieldKK_toNat : (fieldKK w).toNat = w.toNat % 256 := by
  simp only [fieldKK, BitVec.extractLsb'_toNat, Nat.shiftRight_eq_div_pow]; omega

theorem fieldNNN_toNat : (fieldNNN w).toNat = w.toNat % 4096 := by
  simp only [fieldNNN, BitVec.extractLsb'_toNat, Nat.shiftRight_eq_div_pow]; omega

end numbers

/-! ## Fields of a packed word -/

section packed
variable (op : Nibble) (x y : RegIdx) (n : Nibble) (kk : Byte) (nnn : Addr12)

@[simp] theorem fieldOp_packXYN : fieldOp (packXYN op x y n) = op := by
  apply BitVec.eq_of_toNat_eq
  have := op.isLt; have := x.isLt; have := y.isLt; have := n.isLt
  rw [fieldOp_toNat, packXYN_toNat]; omega

@[simp] theorem fieldX_packXYN : fieldX (packXYN op x y n) = x := by
  apply Fin.ext
  have := op.isLt; have := x.isLt; have := y.isLt; have := n.isLt
  rw [fieldX_val, packXYN_toNat]; omega

@[simp] theorem fieldY_packXYN : fieldY (packXYN op x y n) = y := by
  apply Fin.ext
  have := op.isLt; have := x.isLt; have := y.isLt; have := n.isLt
  rw [fieldY_val, packXYN_toNat]; omega

@[simp] theorem fieldN_packXYN : fieldN (packXYN op x y n) = n := by
  apply BitVec.eq_of_toNat_eq
  have := n.isLt
  rw [fieldN_toNat, packXYN_toNat]; omega

@[simp] theorem fieldOp_packXK : fieldOp (packXK op x kk) = op := by
  apply BitVec.eq_of_toNat_eq
  have := op.isLt; have := x.isLt; have := kk.isLt
  rw [fieldOp_toNat, packXK_toNat]; omega

@[simp] theorem fieldX_packXK : fieldX (packXK op x kk) = x := by
  apply Fin.ext
  have := op.isLt; have := x.isLt; have := kk.isLt
  rw [fieldX_val, packXK_toNat]; omega

@[simp] theorem fieldKK_packXK : fieldKK (packXK op x kk) = kk := by
  apply BitVec.eq_of_toNat_eq
  have := kk.isLt
  rw [fieldKK_toNat, packXK_toNat]; omega

@[simp] theorem fieldOp_packA : fieldOp (packA op nnn) = op := by
  apply BitVec.eq_of_toNat_eq
  have := op.isLt; have := nnn.isLt
  rw [fieldOp_toNat, packA_toNat]; omega

@[simp] theorem fieldNNN_packA : fieldNNN (packA op nnn) = nnn := by
  apply BitVec.eq_of_toNat_eq
  have := nnn.isLt
  rw [fieldNNN_toNat, packA_toNat]; omega

end packed

/-! ## A word from its own fields -/

theorem packXYN_fields (w : Word) : packXYN (fieldOp w) (fieldX w) (fieldY w) (fieldN w) = w := by
  apply BitVec.eq_of_toNat_eq
  rw [packXYN_toNat, fieldOp_toNat, fieldX_val, fieldY_val, fieldN_toNat]; omega

theorem packXK_fields (w : Word) : packXK (fieldOp w) (fieldX w) (fieldKK w) = w := by
  apply BitVec.eq_of_toNat_eq
  rw [packXK_toNat, fieldOp_toNat, fieldX_val, fieldKK_toNat]; omega

theorem packA_fields (w : Word) : packA (fieldOp w) (fieldNNN w) = w := by
  apply BitVec.eq_of_toNat_eq
  rw [packA_toNat, fieldOp_toNat, fieldNNN_toNat]; omega

/-! ## Two bytes and their word -/

/-- The word of two bytes is `hi * 256 + lo` (spec/20_memory.md R53). -/
theorem wordOfBytes_toNat (hi lo : Byte) : (wordOfBytes hi lo).toNat = hi.toNat * 256 + lo.toNat := by
  rw [wordOfBytes, append_toNat]; omega

/-- The bytes of a word, put together again, are the word. -/
theorem wordOfBytes_wordBytes (w : Word) : wordOfBytes (w.extractLsb' 8 8) (w.extractLsb' 0 8) = w := by
  apply BitVec.eq_of_toNat_eq
  have := w.isLt
  rw [wordOfBytes_toNat]
  simp only [BitVec.extractLsb'_toNat, Nat.shiftRight_eq_div_pow]; omega

theorem decodeBytes_wordBytes (w : Word) (rest : List Byte) :
    decodeBytes (wordBytes w ++ rest) = .ok (decode w, rest) := by
  simp [wordBytes, decodeBytes, wordOfBytes_wordBytes]

/-- The decoder on a table row's bits: the word decoded. -/
theorem decodeTableWord_16 (w : Word) : decodeTableWord 16 w.toNat = some (decode w) := by
  have h := decodeBytes_wordBytes w []
  simp only [List.append_nil] at h
  simp [decodeTableWord, Nat.mod_eq_of_lt w.isLt, h]

end Sys2Proof
end

