-- ==== Sys2Proof/Laws/State.lean ====
section
/-! SUPPORT. One lemma per field per update of State, so that no later proof unfolds a record update; and what the
readers `readV` and `readByte` give after each update. -/

namespace Sys2Proof.Machine

variable (s : State)

/-! ### writeV -/

@[simp] theorem State.writeV_v (x : RegIdx) (b : Byte) : (s.writeV x b).v = s.v.set x b := rfl
@[simp] theorem State.writeV_i (x : RegIdx) (b : Byte) : (s.writeV x b).i = s.i := rfl
@[simp] theorem State.writeV_pc (x : RegIdx) (b : Byte) : (s.writeV x b).pc = s.pc := rfl
@[simp] theorem State.writeV_sp (x : RegIdx) (b : Byte) : (s.writeV x b).sp = s.sp := rfl
@[simp] theorem State.writeV_stack (x : RegIdx) (b : Byte) : (s.writeV x b).stack = s.stack := rfl
@[simp] theorem State.writeV_dt (x : RegIdx) (b : Byte) : (s.writeV x b).dt = s.dt := rfl
@[simp] theorem State.writeV_st (x : RegIdx) (b : Byte) : (s.writeV x b).st = s.st := rfl
@[simp] theorem State.writeV_key (x : RegIdx) (b : Byte) : (s.writeV x b).key = s.key := rfl
@[simp] theorem State.writeV_fb (x : RegIdx) (b : Byte) : (s.writeV x b).fb = s.fb := rfl
@[simp] theorem State.writeV_ov (x : RegIdx) (b : Byte) : (s.writeV x b).ov = s.ov := rfl
@[simp] theorem State.writeV_mem (x : RegIdx) (b : Byte) : (s.writeV x b).mem = s.mem := rfl
@[simp] theorem State.writeV_params (x : RegIdx) (b : Byte) : (s.writeV x b).params = s.params := rfl
@[simp] theorem State.writeV_draws (x : RegIdx) (b : Byte) : (s.writeV x b).draws = s.draws := rfl
@[simp] theorem State.writeV_out (x : RegIdx) (b : Byte) : (s.writeV x b).out = s.out := rfl
@[simp] theorem State.writeV_loaded (x : RegIdx) (b : Byte) : (s.writeV x b).loaded = s.loaded := rfl
@[simp] theorem State.writeV_readByte (x : RegIdx) (b : Byte) (q : Nat) : (s.writeV x b).readByte q = s.readByte q := rfl

/-! ### setFlag -/

@[simp] theorem State.setFlag_v (f : Bool) : (s.setFlag f).v = s.v.set vf (if f then 1 else 0) := rfl
@[simp] theorem State.setFlag_i (f : Bool) : (s.setFlag f).i = s.i := rfl
@[simp] theorem State.setFlag_pc (f : Bool) : (s.setFlag f).pc = s.pc := rfl
@[simp] theorem State.setFlag_sp (f : Bool) : (s.setFlag f).sp = s.sp := rfl
@[simp] theorem State.setFlag_stack (f : Bool) : (s.setFlag f).stack = s.stack := rfl
@[simp] theorem State.setFlag_dt (f : Bool) : (s.setFlag f).dt = s.dt := rfl
@[simp] theorem State.setFlag_st (f : Bool) : (s.setFlag f).st = s.st := rfl
@[simp] theorem State.setFlag_key (f : Bool) : (s.setFlag f).key = s.key := rfl
@[simp] theorem State.setFlag_fb (f : Bool) : (s.setFlag f).fb = s.fb := rfl
@[simp] theorem State.setFlag_ov (f : Bool) : (s.setFlag f).ov = s.ov := rfl
@[simp] theorem State.setFlag_mem (f : Bool) : (s.setFlag f).mem = s.mem := rfl
@[simp] theorem State.setFlag_params (f : Bool) : (s.setFlag f).params = s.params := rfl
@[simp] theorem State.setFlag_draws (f : Bool) : (s.setFlag f).draws = s.draws := rfl
@[simp] theorem State.setFlag_out (f : Bool) : (s.setFlag f).out = s.out := rfl
@[simp] theorem State.setFlag_loaded (f : Bool) : (s.setFlag f).loaded = s.loaded := rfl
@[simp] theorem State.setFlag_readByte (f : Bool) (q : Nat) : (s.setFlag f).readByte q = s.readByte q := rfl

/-! ### writeI -/

@[simp] theorem State.writeI_v (w : Word) : (s.writeI w).v = s.v := rfl
@[simp] theorem State.writeI_i (w : Word) : (s.writeI w).i = w := rfl
@[simp] theorem State.writeI_pc (w : Word) : (s.writeI w).pc = s.pc := rfl
@[simp] theorem State.writeI_sp (w : Word) : (s.writeI w).sp = s.sp := rfl
@[simp] theorem State.writeI_stack (w : Word) : (s.writeI w).stack = s.stack := rfl
@[simp] theorem State.writeI_dt (w : Word) : (s.writeI w).dt = s.dt := rfl
@[simp] theorem State.writeI_st (w : Word) : (s.writeI w).st = s.st := rfl
@[simp] theorem State.writeI_key (w : Word) : (s.writeI w).key = s.key := rfl
@[simp] theorem State.writeI_fb (w : Word) : (s.writeI w).fb = s.fb := rfl
@[simp] theorem State.writeI_ov (w : Word) : (s.writeI w).ov = s.ov := rfl
@[simp] theorem State.writeI_mem (w : Word) : (s.writeI w).mem = s.mem := rfl
@[simp] theorem State.writeI_params (w : Word) : (s.writeI w).params = s.params := rfl
@[simp] theorem State.writeI_draws (w : Word) : (s.writeI w).draws = s.draws := rfl
@[simp] theorem State.writeI_out (w : Word) : (s.writeI w).out = s.out := rfl
@[simp] theorem State.writeI_loaded (w : Word) : (s.writeI w).loaded = s.loaded := rfl
@[simp] theorem State.writeI_readV (w : Word) (z : RegIdx) : (s.writeI w).readV z = s.readV z := rfl
@[simp] theorem State.writeI_readByte (w : Word) (q : Nat) : (s.writeI w).readByte q = s.readByte q := rfl

/-! ### writePc -/

@[simp] theorem State.writePc_v (w : Word) : (s.writePc w).v = s.v := rfl
@[simp] theorem State.writePc_i (w : Word) : (s.writePc w).i = s.i := rfl
@[simp] theorem State.writePc_pc (w : Word) : (s.writePc w).pc = w := rfl
@[simp] theorem State.writePc_sp (w : Word) : (s.writePc w).sp = s.sp := rfl
@[simp] theorem State.writePc_stack (w : Word) : (s.writePc w).stack = s.stack := rfl
@[simp] theorem State.writePc_dt (w : Word) : (s.writePc w).dt = s.dt := rfl
@[simp] theorem State.writePc_st (w : Word) : (s.writePc w).st = s.st := rfl
@[simp] theorem State.writePc_key (w : Word) : (s.writePc w).key = s.key := rfl
@[simp] theorem State.writePc_fb (w : Word) : (s.writePc w).fb = s.fb := rfl
@[simp] theorem State.writePc_ov (w : Word) : (s.writePc w).ov = s.ov := rfl
@[simp] theorem State.writePc_mem (w : Word) : (s.writePc w).mem = s.mem := rfl
@[simp] theorem State.writePc_params (w : Word) : (s.writePc w).params = s.params := rfl
@[simp] theorem State.writePc_draws (w : Word) : (s.writePc w).draws = s.draws := rfl
@[simp] theorem State.writePc_out (w : Word) : (s.writePc w).out = s.out := rfl
@[simp] theorem State.writePc_loaded (w : Word) : (s.writePc w).loaded = s.loaded := rfl
@[simp] theorem State.writePc_readV (w : Word) (z : RegIdx) : (s.writePc w).readV z = s.readV z := rfl
@[simp] theorem State.writePc_readByte (w : Word) (q : Nat) : (s.writePc w).readByte q = s.readByte q := rfl

/-! ### advance -/

@[simp] theorem State.advance_v (k : Word) : (s.advance k).v = s.v := rfl
@[simp] theorem State.advance_i (k : Word) : (s.advance k).i = s.i := rfl
@[simp] theorem State.advance_pc (k : Word) : (s.advance k).pc = s.pc + k := rfl
@[simp] theorem State.advance_sp (k : Word) : (s.advance k).sp = s.sp := rfl
@[simp] theorem State.advance_stack (k : Word) : (s.advance k).stack = s.stack := rfl
@[simp] theorem State.advance_dt (k : Word) : (s.advance k).dt = s.dt := rfl
@[simp] theorem State.advance_st (k : Word) : (s.advance k).st = s.st := rfl
@[simp] theorem State.advance_key (k : Word) : (s.advance k).key = s.key := rfl
@[simp] theorem State.advance_fb (k : Word) : (s.advance k).fb = s.fb := rfl
@[simp] theorem State.advance_ov (k : Word) : (s.advance k).ov = s.ov := rfl
@[simp] theorem State.advance_mem (k : Word) : (s.advance k).mem = s.mem := rfl
@[simp] theorem State.advance_params (k : Word) : (s.advance k).params = s.params := rfl
@[simp] theorem State.advance_draws (k : Word) : (s.advance k).draws = s.draws := rfl
@[simp] theorem State.advance_out (k : Word) : (s.advance k).out = s.out := rfl
@[simp] theorem State.advance_loaded (k : Word) : (s.advance k).loaded = s.loaded := rfl
@[simp] theorem State.advance_readV (k : Word) (z : RegIdx) : (s.advance k).readV z = s.readV z := rfl
@[simp] theorem State.advance_readByte (k : Word) (q : Nat) : (s.advance k).readByte q = s.readByte q := rfl

/-! ### writeDt -/

@[simp] theorem State.writeDt_v (b : Byte) : (s.writeDt b).v = s.v := rfl
@[simp] theorem State.writeDt_i (b : Byte) : (s.writeDt b).i = s.i := rfl
@[simp] theorem State.writeDt_pc (b : Byte) : (s.writeDt b).pc = s.pc := rfl
@[simp] theorem State.writeDt_sp (b : Byte) : (s.writeDt b).sp = s.sp := rfl
@[simp] theorem State.writeDt_stack (b : Byte) : (s.writeDt b).stack = s.stack := rfl
@[simp] theorem State.writeDt_dt (b : Byte) : (s.writeDt b).dt = b := rfl
@[simp] theorem State.writeDt_st (b : Byte) : (s.writeDt b).st = s.st := rfl
@[simp] theorem State.writeDt_key (b : Byte) : (s.writeDt b).key = s.key := rfl
@[simp] theorem State.writeDt_fb (b : Byte) : (s.writeDt b).fb = s.fb := rfl
@[simp] theorem State.writeDt_ov (b : Byte) : (s.writeDt b).ov = s.ov := rfl
@[simp] theorem State.writeDt_mem (b : Byte) : (s.writeDt b).mem = s.mem := rfl
@[simp] theorem State.writeDt_params (b : Byte) : (s.writeDt b).params = s.params := rfl
@[simp] theorem State.writeDt_draws (b : Byte) : (s.writeDt b).draws = s.draws := rfl
@[simp] theorem State.writeDt_out (b : Byte) : (s.writeDt b).out = s.out := rfl
@[simp] theorem State.writeDt_loaded (b : Byte) : (s.writeDt b).loaded = s.loaded := rfl
@[simp] theorem State.writeDt_readV (b : Byte) (z : RegIdx) : (s.writeDt b).readV z = s.readV z := rfl
@[simp] theorem State.writeDt_readByte (b : Byte) (q : Nat) : (s.writeDt b).readByte q = s.readByte q := rfl

/-! ### writeSt -/

@[simp] theorem State.writeSt_v (b : Byte) : (s.writeSt b).v = s.v := rfl
@[simp] theorem State.writeSt_i (b : Byte) : (s.writeSt b).i = s.i := rfl
@[simp] theorem State.writeSt_pc (b : Byte) : (s.writeSt b).pc = s.pc := rfl
@[simp] theorem State.writeSt_sp (b : Byte) : (s.writeSt b).sp = s.sp := rfl
@[simp] theorem State.writeSt_stack (b : Byte) : (s.writeSt b).stack = s.stack := rfl
@[simp] theorem State.writeSt_dt (b : Byte) : (s.writeSt b).dt = s.dt := rfl
@[simp] theorem State.writeSt_st (b : Byte) : (s.writeSt b).st = b := rfl
@[simp] theorem State.writeSt_key (b : Byte) : (s.writeSt b).key = s.key := rfl
@[simp] theorem State.writeSt_fb (b : Byte) : (s.writeSt b).fb = s.fb := rfl
@[simp] theorem State.writeSt_ov (b : Byte) : (s.writeSt b).ov = s.ov := rfl
@[simp] theorem State.writeSt_mem (b : Byte) : (s.writeSt b).mem = s.mem := rfl
@[simp] theorem State.writeSt_params (b : Byte) : (s.writeSt b).params = s.params := rfl
@[simp] theorem State.writeSt_draws (b : Byte) : (s.writeSt b).draws = s.draws := rfl
@[simp] theorem State.writeSt_out (b : Byte) : (s.writeSt b).out = s.out := rfl
@[simp] theorem State.writeSt_loaded (b : Byte) : (s.writeSt b).loaded = s.loaded := rfl
@[simp] theorem State.writeSt_readV (b : Byte) (z : RegIdx) : (s.writeSt b).readV z = s.readV z := rfl
@[simp] theorem State.writeSt_readByte (b : Byte) (q : Nat) : (s.writeSt b).readByte q = s.readByte q := rfl

/-! ### writeFb -/

@[simp] theorem State.writeFb_v (d : Framebuffer) : (s.writeFb d).v = s.v := rfl
@[simp] theorem State.writeFb_i (d : Framebuffer) : (s.writeFb d).i = s.i := rfl
@[simp] theorem State.writeFb_pc (d : Framebuffer) : (s.writeFb d).pc = s.pc := rfl
@[simp] theorem State.writeFb_sp (d : Framebuffer) : (s.writeFb d).sp = s.sp := rfl
@[simp] theorem State.writeFb_stack (d : Framebuffer) : (s.writeFb d).stack = s.stack := rfl
@[simp] theorem State.writeFb_dt (d : Framebuffer) : (s.writeFb d).dt = s.dt := rfl
@[simp] theorem State.writeFb_st (d : Framebuffer) : (s.writeFb d).st = s.st := rfl
@[simp] theorem State.writeFb_key (d : Framebuffer) : (s.writeFb d).key = s.key := rfl
@[simp] theorem State.writeFb_fb (d : Framebuffer) : (s.writeFb d).fb = d := rfl
@[simp] theorem State.writeFb_ov (d : Framebuffer) : (s.writeFb d).ov = s.ov := rfl
@[simp] theorem State.writeFb_mem (d : Framebuffer) : (s.writeFb d).mem = s.mem := rfl
@[simp] theorem State.writeFb_params (d : Framebuffer) : (s.writeFb d).params = s.params := rfl
@[simp] theorem State.writeFb_draws (d : Framebuffer) : (s.writeFb d).draws = s.draws := rfl
@[simp] theorem State.writeFb_out (d : Framebuffer) : (s.writeFb d).out = s.out := rfl
@[simp] theorem State.writeFb_loaded (d : Framebuffer) : (s.writeFb d).loaded = s.loaded := rfl
@[simp] theorem State.writeFb_readV (d : Framebuffer) (z : RegIdx) : (s.writeFb d).readV z = s.readV z := rfl
@[simp] theorem State.writeFb_readByte (d : Framebuffer) (q : Nat) : (s.writeFb d).readByte q = s.readByte q := rfl

/-! ### writeByte -/

@[simp] theorem State.writeByte_v (a : Nat) (b : Byte) : (s.writeByte a b).v = s.v := rfl
@[simp] theorem State.writeByte_i (a : Nat) (b : Byte) : (s.writeByte a b).i = s.i := rfl
@[simp] theorem State.writeByte_pc (a : Nat) (b : Byte) : (s.writeByte a b).pc = s.pc := rfl
@[simp] theorem State.writeByte_sp (a : Nat) (b : Byte) : (s.writeByte a b).sp = s.sp := rfl
@[simp] theorem State.writeByte_stack (a : Nat) (b : Byte) : (s.writeByte a b).stack = s.stack := rfl
@[simp] theorem State.writeByte_dt (a : Nat) (b : Byte) : (s.writeByte a b).dt = s.dt := rfl
@[simp] theorem State.writeByte_st (a : Nat) (b : Byte) : (s.writeByte a b).st = s.st := rfl
@[simp] theorem State.writeByte_key (a : Nat) (b : Byte) : (s.writeByte a b).key = s.key := rfl
@[simp] theorem State.writeByte_fb (a : Nat) (b : Byte) : (s.writeByte a b).fb = s.fb := rfl
@[simp] theorem State.writeByte_ov (a : Nat) (b : Byte) : (s.writeByte a b).ov = s.ov := rfl
@[simp] theorem State.writeByte_mem (a : Nat) (b : Byte) : (s.writeByte a b).mem = Memory.write s.params s.mem a b := rfl
@[simp] theorem State.writeByte_params (a : Nat) (b : Byte) : (s.writeByte a b).params = s.params := rfl
@[simp] theorem State.writeByte_draws (a : Nat) (b : Byte) : (s.writeByte a b).draws = s.draws := rfl
@[simp] theorem State.writeByte_out (a : Nat) (b : Byte) : (s.writeByte a b).out = s.out := rfl
@[simp] theorem State.writeByte_loaded (a : Nat) (b : Byte) : (s.writeByte a b).loaded = s.loaded := rfl
@[simp] theorem State.writeByte_readV (a : Nat) (b : Byte) (z : RegIdx) : (s.writeByte a b).readV z = s.readV z := rfl

/-! ### emit -/

@[simp] theorem State.emit_v (r : StepResult) (d : Bool) : (s.emit r d).v = s.v := rfl
@[simp] theorem State.emit_i (r : StepResult) (d : Bool) : (s.emit r d).i = s.i := rfl
@[simp] theorem State.emit_pc (r : StepResult) (d : Bool) : (s.emit r d).pc = s.pc := rfl
@[simp] theorem State.emit_sp (r : StepResult) (d : Bool) : (s.emit r d).sp = s.sp := rfl
@[simp] theorem State.emit_stack (r : StepResult) (d : Bool) : (s.emit r d).stack = s.stack := rfl
@[simp] theorem State.emit_dt (r : StepResult) (d : Bool) : (s.emit r d).dt = s.dt := rfl
@[simp] theorem State.emit_st (r : StepResult) (d : Bool) : (s.emit r d).st = s.st := rfl
@[simp] theorem State.emit_key (r : StepResult) (d : Bool) : (s.emit r d).key = s.key := rfl
@[simp] theorem State.emit_fb (r : StepResult) (d : Bool) : (s.emit r d).fb = s.fb := rfl
@[simp] theorem State.emit_ov (r : StepResult) (d : Bool) : (s.emit r d).ov = s.ov := rfl
@[simp] theorem State.emit_mem (r : StepResult) (d : Bool) : (s.emit r d).mem = s.mem := rfl
@[simp] theorem State.emit_params (r : StepResult) (d : Bool) : (s.emit r d).params = s.params := rfl
@[simp] theorem State.emit_draws (r : StepResult) (d : Bool) : (s.emit r d).draws = s.draws := rfl
@[simp] theorem State.emit_out (r : StepResult) (d : Bool) : (s.emit r d).out = { result := r, dirty := d } := rfl
@[simp] theorem State.emit_loaded (r : StepResult) (d : Bool) : (s.emit r d).loaded = s.loaded := rfl
@[simp] theorem State.emit_readV (r : StepResult) (d : Bool) (z : RegIdx) : (s.emit r d).readV z = s.readV z := rfl
@[simp] theorem State.emit_readByte (r : StepResult) (d : Bool) (q : Nat) : (s.emit r d).readByte q = s.readByte q := rfl

/-! ### drawByte -/

@[simp] theorem State.drawByte_fst : s.drawByte.1 = Config.randByte s.draws := rfl
@[simp] theorem State.drawByte_v : s.drawByte.2.v = s.v := rfl
@[simp] theorem State.drawByte_i : s.drawByte.2.i = s.i := rfl
@[simp] theorem State.drawByte_pc : s.drawByte.2.pc = s.pc := rfl
@[simp] theorem State.drawByte_sp : s.drawByte.2.sp = s.sp := rfl
@[simp] theorem State.drawByte_stack : s.drawByte.2.stack = s.stack := rfl
@[simp] theorem State.drawByte_dt : s.drawByte.2.dt = s.dt := rfl
@[simp] theorem State.drawByte_st : s.drawByte.2.st = s.st := rfl
@[simp] theorem State.drawByte_key : s.drawByte.2.key = s.key := rfl
@[simp] theorem State.drawByte_fb : s.drawByte.2.fb = s.fb := rfl
@[simp] theorem State.drawByte_ov : s.drawByte.2.ov = s.ov := rfl
@[simp] theorem State.drawByte_mem : s.drawByte.2.mem = s.mem := rfl
@[simp] theorem State.drawByte_params : s.drawByte.2.params = s.params := rfl
@[simp] theorem State.drawByte_draws : s.drawByte.2.draws = s.draws + 1 := rfl
@[simp] theorem State.drawByte_out : s.drawByte.2.out = s.out := rfl
@[simp] theorem State.drawByte_loaded : s.drawByte.2.loaded = s.loaded := rfl
@[simp] theorem State.drawByte_readV (r : RegIdx) : s.drawByte.2.readV r = s.readV r := rfl
@[simp] theorem State.drawByte_readByte (q : Nat) : s.drawByte.2.readByte q = s.readByte q := rfl

/-! ### Reading a register after a register write -/

theorem State.writeV_readV (x r : RegIdx) (b : Byte) :
    (s.writeV x b).readV r = if r = x then b else s.readV r := by
  simp only [State.readV, State.writeV_v, Fin.getElem_fin, Vector.getElem_set, Fin.ext_iff, eq_comm]

@[simp] theorem State.writeV_readV_same (x : RegIdx) (b : Byte) : (s.writeV x b).readV x = b := by
  simp [State.writeV_readV]

theorem State.writeV_readV_ne {x r : RegIdx} (b : Byte) (h : r ≠ x) : (s.writeV x b).readV r = s.readV r := by
  simp [State.writeV_readV, h]

theorem State.setFlag_readV (f : Bool) (r : RegIdx) :
    (s.setFlag f).readV r = if r = vf then (if f then 1 else 0) else s.readV r :=
  State.writeV_readV s vf r _

/-! ### storeBytes: only memory changes -/

@[simp] theorem State.storeBytes_v (a : Nat) (bs : List Byte) : (s.storeBytes a bs).v = s.v := by
  induction bs generalizing s a with
  | nil => rfl
  | cons b bs ih => simp [State.storeBytes, ih]
@[simp] theorem State.storeBytes_i (a : Nat) (bs : List Byte) : (s.storeBytes a bs).i = s.i := by
  induction bs generalizing s a with
  | nil => rfl
  | cons b bs ih => simp [State.storeBytes, ih]
@[simp] theorem State.storeBytes_pc (a : Nat) (bs : List Byte) : (s.storeBytes a bs).pc = s.pc := by
  induction bs generalizing s a with
  | nil => rfl
  | cons b bs ih => simp [State.storeBytes, ih]
@[simp] theorem State.storeBytes_sp (a : Nat) (bs : List Byte) : (s.storeBytes a bs).sp = s.sp := by
  induction bs generalizing s a with
  | nil => rfl
  | cons b bs ih => simp [State.storeBytes, ih]
@[simp] theorem State.storeBytes_stack (a : Nat) (bs : List Byte) : (s.storeBytes a bs).stack = s.stack := by
  induction bs generalizing s a with
  | nil => rfl
  | cons b bs ih => simp [State.storeBytes, ih]
@[simp] theorem State.storeBytes_dt (a : Nat) (bs : List Byte) : (s.storeBytes a bs).dt = s.dt := by
  induction bs generalizing s a with
  | nil => rfl
  | cons b bs ih => simp [State.storeBytes, ih]
@[simp] theorem State.storeBytes_st (a : Nat) (bs : List Byte) : (s.storeBytes a bs).st = s.st := by
  induction bs generalizing s a with
  | nil => rfl
  | cons b bs ih => simp [State.storeBytes, ih]
@[simp] theorem State.storeBytes_key (a : Nat) (bs : List Byte) : (s.storeBytes a bs).key = s.key := by
  induction bs generalizing s a with
  | nil => rfl
  | cons b bs ih => simp [State.storeBytes, ih]
@[simp] theorem State.storeBytes_fb (a : Nat) (bs : List Byte) : (s.storeBytes a bs).fb = s.fb := by
  induction bs generalizing s a with
  | nil => rfl
  | cons b bs ih => simp [State.storeBytes, ih]
@[simp] theorem State.storeBytes_ov (a : Nat) (bs : List Byte) : (s.storeBytes a bs).ov = s.ov := by
  induction bs generalizing s a with
  | nil => rfl
  | cons b bs ih => simp [State.storeBytes, ih]
@[simp] theorem State.storeBytes_params (a : Nat) (bs : List Byte) : (s.storeBytes a bs).params = s.params := by
  induction bs generalizing s a with
  | nil => rfl
  | cons b bs ih => simp [State.storeBytes, ih]
@[simp] theorem State.storeBytes_draws (a : Nat) (bs : List Byte) : (s.storeBytes a bs).draws = s.draws := by
  induction bs generalizing s a with
  | nil => rfl
  | cons b bs ih => simp [State.storeBytes, ih]
@[simp] theorem State.storeBytes_out (a : Nat) (bs : List Byte) : (s.storeBytes a bs).out = s.out := by
  induction bs generalizing s a with
  | nil => rfl
  | cons b bs ih => simp [State.storeBytes, ih]
@[simp] theorem State.storeBytes_loaded (a : Nat) (bs : List Byte) : (s.storeBytes a bs).loaded = s.loaded := by
  induction bs generalizing s a with
  | nil => rfl
  | cons b bs ih => simp [State.storeBytes, ih]

@[simp] theorem State.storeBytes_readV (a : Nat) (bs : List Byte) (r : RegIdx) :
    (s.storeBytes a bs).readV r = s.readV r := by simp [State.readV]

/-! ### writeRegs: only registers change -/

@[simp] theorem State.writeRegs_i (k : Nat) (bs : List Byte) : (s.writeRegs k bs).i = s.i := by
  induction bs generalizing s k with
  | nil => rfl
  | cons b bs ih => simp only [State.writeRegs, ih]; split <;> rfl
@[simp] theorem State.writeRegs_pc (k : Nat) (bs : List Byte) : (s.writeRegs k bs).pc = s.pc := by
  induction bs generalizing s k with
  | nil => rfl
  | cons b bs ih => simp only [State.writeRegs, ih]; split <;> rfl
@[simp] theorem State.writeRegs_sp (k : Nat) (bs : List Byte) : (s.writeRegs k bs).sp = s.sp := by
  induction bs generalizing s k with
  | nil => rfl
  | cons b bs ih => simp only [State.writeRegs, ih]; split <;> rfl
@[simp] theorem State.writeRegs_stack (k : Nat) (bs : List Byte) : (s.writeRegs k bs).stack = s.stack := by
  induction bs generalizing s k with
  | nil => rfl
  | cons b bs ih => simp only [State.writeRegs, ih]; split <;> rfl
@[simp] theorem State.writeRegs_dt (k : Nat) (bs : List Byte) : (s.writeRegs k bs).dt = s.dt := by
  induction bs generalizing s k with
  | nil => rfl
  | cons b bs ih => simp only [State.writeRegs, ih]; split <;> rfl
@[simp] theorem State.writeRegs_st (k : Nat) (bs : List Byte) : (s.writeRegs k bs).st = s.st := by
  induction bs generalizing s k with
  | nil => rfl
  | cons b bs ih => simp only [State.writeRegs, ih]; split <;> rfl
@[simp] theorem State.writeRegs_key (k : Nat) (bs : List Byte) : (s.writeRegs k bs).key = s.key := by
  induction bs generalizing s k with
  | nil => rfl
  | cons b bs ih => simp only [State.writeRegs, ih]; split <;> rfl
@[simp] theorem State.writeRegs_fb (k : Nat) (bs : List Byte) : (s.writeRegs k bs).fb = s.fb := by
  induction bs generalizing s k with
  | nil => rfl
  | cons b bs ih => simp only [State.writeRegs, ih]; split <;> rfl
@[simp] theorem State.writeRegs_ov (k : Nat) (bs : List Byte) : (s.writeRegs k bs).ov = s.ov := by
  induction bs generalizing s k with
  | nil => rfl
  | cons b bs ih => simp only [State.writeRegs, ih]; split <;> rfl
@[simp] theorem State.writeRegs_mem (k : Nat) (bs : List Byte) : (s.writeRegs k bs).mem = s.mem := by
  induction bs generalizing s k with
  | nil => rfl
  | cons b bs ih => simp only [State.writeRegs, ih]; split <;> rfl
@[simp] theorem State.writeRegs_params (k : Nat) (bs : List Byte) : (s.writeRegs k bs).params = s.params := by
  induction bs generalizing s k with
  | nil => rfl
  | cons b bs ih => simp only [State.writeRegs, ih]; split <;> rfl
@[simp] theorem State.writeRegs_draws (k : Nat) (bs : List Byte) : (s.writeRegs k bs).draws = s.draws := by
  induction bs generalizing s k with
  | nil => rfl
  | cons b bs ih => simp only [State.writeRegs, ih]; split <;> rfl
@[simp] theorem State.writeRegs_out (k : Nat) (bs : List Byte) : (s.writeRegs k bs).out = s.out := by
  induction bs generalizing s k with
  | nil => rfl
  | cons b bs ih => simp only [State.writeRegs, ih]; split <;> rfl
@[simp] theorem State.writeRegs_loaded (k : Nat) (bs : List Byte) : (s.writeRegs k bs).loaded = s.loaded := by
  induction bs generalizing s k with
  | nil => rfl
  | cons b bs ih => simp only [State.writeRegs, ih]; split <;> rfl

@[simp] theorem State.writeRegs_readByte (k : Nat) (bs : List Byte) (q : Nat) :
    (s.writeRegs k bs).readByte q = s.readByte q := by simp [State.readByte]

end Sys2Proof.Machine
end

