-- ==== Sys2Proof/Laws/Memory.lean ====
section
/-! SUPPORT. The laws of the sparse tables, and from them those of memory and of the framebuffer: a read after a write,
that a write keeps the canonical form, that equal tables are equal data, and what loading and storing a block does. -/

namespace Sys2Proof.Machine

/-! ## Sparse tables -/

section sparse
variable {α : Type} [DecidableEq α] (d : Nat → α)

theorem Sparse.read_of_wfFrom_lt {hi lo : Nat} {m : List (Nat × α)} (h : Sparse.wfFrom d hi lo m = true) {a : Nat}
    (ha : a < lo) : Sparse.read d a m = d a := by
  induction m generalizing lo with
  | nil => rfl
  | cons e m ih =>
    obtain ⟨k, c⟩ := e
    simp only [Sparse.wfFrom, Bool.and_eq_true, decide_eq_true_eq] at h
    obtain ⟨⟨⟨h1, h2⟩, h3⟩, h4⟩ := h
    rw [Sparse.read, if_neg (by omega), ih h4 (by omega)]

theorem Sparse.wfFrom_mono {hi lo lo' : Nat} {m : List (Nat × α)} (h : Sparse.wfFrom d hi lo m = true)
    (hl : lo' ≤ lo) : Sparse.wfFrom d hi lo' m = true := by
  cases m with
  | nil => rfl
  | cons e m =>
    obtain ⟨k, c⟩ := e
    simp only [Sparse.wfFrom, Bool.and_eq_true, decide_eq_true_eq] at h ⊢
    exact ⟨⟨⟨by omega, h.1.1.2⟩, h.1.2⟩, h.2⟩

/-- A write keeps the canonical form. -/
theorem Sparse.write_wfFrom {hi lo : Nat} {m : List (Nat × α)} (h : Sparse.wfFrom d hi lo m = true) {a : Nat} (b : α)
    (hlo : lo ≤ a) (hhi : a < hi) : Sparse.wfFrom d hi lo (Sparse.write d a b m) = true := by
  induction m generalizing lo with
  | nil =>
    simp only [Sparse.write]
    split <;> simp_all [Sparse.wfFrom]
  | cons e m ih =>
    obtain ⟨k, c⟩ := e
    simp only [Sparse.wfFrom, Bool.and_eq_true, decide_eq_true_eq] at h
    obtain ⟨⟨⟨h1, h2⟩, h3⟩, h4⟩ := h
    rw [Sparse.write]
    split
    · split
      · simp [Sparse.wfFrom, h1, h2, h3, h4]
      · rename_i hlt hb
        simp [Sparse.wfFrom, h2, h3, h4, hlo, hhi, hb]; omega
    · split
      · split
        · exact Sparse.wfFrom_mono d h4 (by omega)
        · rename_i heq hb
          subst heq
          simp [Sparse.wfFrom, hb, h4, hlo, hhi]
      · simp only [Sparse.wfFrom, Bool.and_eq_true, decide_eq_true_eq]
        exact ⟨⟨⟨h1, h2⟩, h3⟩, ih h4 (by omega)⟩

/-- A read after a write, in a table in canonical form. -/
theorem Sparse.read_write {hi lo : Nat} {m : List (Nat × α)} (h : Sparse.wfFrom d hi lo m = true) (a q : Nat) (b : α) :
    Sparse.read d q (Sparse.write d a b m) = if q = a then b else Sparse.read d q m := by
  induction m generalizing lo with
  | nil =>
    simp only [Sparse.write]
    split <;> simp only [Sparse.read]
    · split <;> simp_all
    · simp only [eq_comm]
  | cons e m ih =>
    obtain ⟨k, c⟩ := e
    simp only [Sparse.wfFrom, Bool.and_eq_true, decide_eq_true_eq] at h
    obtain ⟨⟨⟨h1, h2⟩, h3⟩, h4⟩ := h
    rw [Sparse.write]
    split
    · rename_i hlt
      split
      · rename_i hb
        split
        · rename_i hq
          rw [hq, Sparse.read, if_neg (by omega), Sparse.read_of_wfFrom_lt d h4 (by omega), hb]
        · rfl
      · rw [Sparse.read]
        simp only [eq_comm]
    · split
      · rename_i hnlt heq
        subst heq
        split
        · rename_i hb
          split
          · rename_i hq
            rw [hq, Sparse.read_of_wfFrom_lt d h4 (by omega), hb]
          · rename_i hq
            rw [Sparse.read, if_neg (fun hk => hq hk.symm)]
        · rw [Sparse.read, Sparse.read]
          split <;> rename_i hq
          · rw [if_pos hq.symm]
          · rw [if_neg (fun hk => hq hk.symm)]
      · rename_i hnlt hne
        rw [Sparse.read, ih h4, Sparse.read]
        by_cases hk : k = q
        · rw [if_pos hk, if_pos hk, if_neg (by omega)]
        · rw [if_neg hk, if_neg hk]

/-- Equal tables are equal data: two tables in canonical form that read the same everywhere are the same list. -/
theorem Sparse.eq_of_read_eq {hi lo : Nat} {m m' : List (Nat × α)} (h : Sparse.wfFrom d hi lo m = true)
    (h' : Sparse.wfFrom d hi lo m' = true) (hr : ∀ a, Sparse.read d a m = Sparse.read d a m') : m = m' := by
  induction m generalizing m' lo with
  | nil =>
    cases m' with
    | nil => rfl
    | cons e m' =>
      obtain ⟨k, c⟩ := e
      simp only [Sparse.wfFrom, Bool.and_eq_true, decide_eq_true_eq] at h'
      have := hr k
      simp only [Sparse.read, if_true] at this
      exact absurd this.symm h'.1.2
  | cons e m ih =>
    obtain ⟨k, c⟩ := e
    cases m' with
    | nil =>
      simp only [Sparse.wfFrom, Bool.and_eq_true, decide_eq_true_eq] at h
      have := hr k
      simp only [Sparse.read, if_true] at this
      exact absurd this h.1.2
    | cons e' m' =>
      obtain ⟨k', c'⟩ := e'
      simp only [Sparse.wfFrom, Bool.and_eq_true, decide_eq_true_eq] at h h'
      obtain ⟨⟨⟨h1, h2⟩, h3⟩, h4⟩ := h
      obtain ⟨⟨⟨h1', h2'⟩, h3'⟩, h4'⟩ := h'
      have hk : k = k' := by
        rcases Nat.lt_trichotomy k k' with hlt | heq | hgt
        · have := hr k
          rw [Sparse.read, if_pos rfl, Sparse.read, if_neg (by omega), Sparse.read_of_wfFrom_lt d h4' (by omega)] at this
          exact absurd this h3
        · exact heq
        · have := hr k'
          rw [Sparse.read, if_neg (by omega), Sparse.read_of_wfFrom_lt d h4 (by omega), Sparse.read, if_pos rfl] at this
          exact absurd this.symm h3'
      subst hk
      have hc : c = c' := by simpa [Sparse.read] using hr k
      subst hc
      rw [ih h4 h4']
      intro a
      have := hr a
      simp only [Sparse.read] at this
      by_cases hak : k = a
      · rw [← hak, Sparse.read_of_wfFrom_lt d h4 (by omega), Sparse.read_of_wfFrom_lt d h4' (by omega)]
      · simpa [hak] using this

end sparse

/-! ## Memory -/

theorem Memory.read_write {p : Config.Params} {m : Memory} (h : Memory.wf p m = true) (a q : Nat) (b : Byte) :
    Memory.read p (Memory.write p m a b) q = if q = a then b else Memory.read p m q :=
  Sparse.read_write _ h a q b

theorem Memory.write_wf {p : Config.Params} {m : Memory} (h : Memory.wf p m = true) {a : Nat} (b : Byte)
    (ha : a < 4096) : Memory.wf p (Memory.write p m a b) = true :=
  Sparse.write_wfFrom _ h b (Nat.zero_le a) ha

/-- Equal memories are equal data. -/
theorem Memory.eq_of_read_eq {p : Config.Params} {m m' : Memory} (h : Memory.wf p m = true) (h' : Memory.wf p m' = true)
    (hr : ∀ a, Memory.read p m a = Memory.read p m' a) : m = m' :=
  Sparse.eq_of_read_eq _ h h' hr

/-- The memory of the reset state is in canonical form, whatever the parameters. -/
theorem Memory.reset_wf (p : Config.Params) : Memory.wf p (State.resetWith p).mem = true := rfl

theorem State.writeByte_readByte (s : State) (h : s.mem.wf s.params = true) (a q : Nat) (b : Byte) :
    (s.writeByte a b).readByte q = if q = a then b else s.readByte q :=
  Memory.read_write h a q b

theorem State.writeByte_memWf (s : State) (h : s.mem.wf s.params = true) {a : Nat} (b : Byte) (ha : a < 4096) :
    (s.writeByte a b).mem.wf (s.writeByte a b).params = true :=
  Memory.write_wf h b ha

/-! ## Blocks -/

@[simp] theorem State.loadBytes_length (s : State) (a n : Nat) : (s.loadBytes a n).length = n := by
  induction n generalizing a with
  | zero => rfl
  | succ n ih => simp [State.loadBytes, ih]

theorem State.loadBytes_getElem (s : State) (a n k : Nat) (h : k < (s.loadBytes a n).length) :
    (s.loadBytes a n)[k] = s.readByte (a + k) := by
  induction n generalizing a k with
  | zero => simp [State.loadBytes] at h
  | succ n ih =>
    cases k with
    | zero => rfl
    | succ k =>
      simp only [State.loadBytes, List.getElem_cons_succ]
      rw [ih]
      congr 1
      omega

/-- Storing a block keeps the canonical form. -/
theorem State.storeBytes_memWf (s : State) (h : s.mem.wf s.params = true) (a : Nat) (bs : List Byte)
    (ha : a + bs.length ≤ 4096) : (s.storeBytes a bs).mem.wf s.params = true := by
  induction bs generalizing s a with
  | nil => exact h
  | cons b bs ih =>
    simp only [List.length_cons] at ha
    exact ih (s.writeByte a b) (s.writeByte_memWf h b (by omega)) (a + 1) (by omega)

/-- What a byte reads as after a block is stored: the block's byte inside the block, the old byte outside it. -/
theorem State.storeBytes_readByte (s : State) (h : s.mem.wf s.params = true) (a : Nat) (bs : List Byte)
    (ha : a + bs.length ≤ 4096) (q : Nat) :
    (s.storeBytes a bs).readByte q = if hq : a ≤ q ∧ q < a + bs.length then bs[q - a]'(by omega) else s.readByte q := by
  induction bs generalizing s a with
  | nil => rw [dif_neg (by simp)]; rfl
  | cons b bs ih =>
    simp only [List.length_cons] at ha
    rw [State.storeBytes, ih (s.writeByte a b) (s.writeByte_memWf h b (by omega)) (a + 1) (by omega),
      State.writeByte_readByte s h]
    by_cases hq : a + 1 ≤ q ∧ q < a + 1 + bs.length
    · rw [dif_pos hq, dif_pos (by simp only [List.length_cons]; omega)]
      simp only [show q - a = (q - (a + 1)) + 1 by omega, List.getElem_cons_succ]
    · rw [dif_neg hq]
      by_cases hqa : q = a
      · subst hqa
        rw [if_pos rfl, dif_pos (by simp only [List.length_cons]; omega)]
        simp
      · rw [if_neg hqa, dif_neg (by simp only [List.length_cons]; omega)]

/-! ## Framebuffer -/

theorem Framebuffer.write_cell {fb : Framebuffer} (h : fb.wf = true) (c q : CellIdx) (v : Pixel) :
    (fb.write c v).cell q = if q = c then v else fb.cell q := by
  simp only [Framebuffer.cell, Framebuffer.write, Fin.ext_iff]
  exact Sparse.read_write _ h c.val q.val v

theorem Framebuffer.write_wf {fb : Framebuffer} (h : fb.wf = true) (c : CellIdx) (v : Pixel) :
    (fb.write c v).wf = true :=
  Sparse.write_wfFrom _ h v (Nat.zero_le _) c.isLt

@[simp] theorem Framebuffer.blank_cell (c : CellIdx) : Framebuffer.blank.cell c = 0 := rfl

@[simp] theorem Framebuffer.blank_wf : Framebuffer.blank.wf = true := rfl

theorem Framebuffer.read_of_ge {lo : Nat} {m : Framebuffer} (h : Sparse.wfFrom Framebuffer.unlisted 2048 lo m = true)
    {a : Nat} (ha : 2048 ≤ a) : Sparse.read Framebuffer.unlisted a m = 0 := by
  induction m generalizing lo with
  | nil => rfl
  | cons e m ih =>
    obtain ⟨k, c⟩ := e
    simp only [Sparse.wfFrom, Bool.and_eq_true, decide_eq_true_eq] at h
    rw [Sparse.read, if_neg (by omega), ih h.2]

/-- Equal framebuffers are equal data. -/
theorem Framebuffer.eq_of_cell_eq {fb fb' : Framebuffer} (h : fb.wf = true) (h' : fb'.wf = true)
    (hr : ∀ c, fb.cell c = fb'.cell c) : fb = fb' := by
  refine Sparse.eq_of_read_eq _ h h' (fun a => ?_)
  by_cases ha : a < 2048
  · exact hr ⟨a, ha⟩
  · rw [Framebuffer.read_of_ge h (by omega), Framebuffer.read_of_ge h' (by omega)]

end Sys2Proof.Machine
end

