-- ==== Sys2Proof/Laws/Ops.lean ====
section
/-! SUPPORT. One lemma per shared operation, saying once everything it can do: the ends of an instruction, the call
stack, register blocks, key scan, and fetching. -/

namespace Sys2Proof.Machine

variable {s t : State}

/-! ## Ends of an instruction -/

@[simp] theorem complete_eq_next {d : Bool} : complete s d = .next t ↔ t = s.emit .cont d := by
  simp [complete, eq_comm]

@[simp] theorem completeNext_eq_next : completeNext s = .next t ↔ t = (s.advance 2).emit .cont false := by
  simp [completeNext]

@[simp] theorem completeSkip_eq_next {c : Bool} :
    completeSkip s c = .next t ↔ t = (s.advance (if c then 4 else 2)).emit .cont false := by
  simp [completeSkip]

@[simp] theorem raise_ne_next {f : Fault} : raise f ≠ .next t := by simp [raise]

@[simp] theorem raise_eq_fault {f g : Fault} : raise f = .fault g ↔ f = g := by simp [raise]

@[simp] theorem inMemory_iff {a n : Nat} : inMemory a n = true ↔ a + n ≤ 4096 := by simp [inMemory]

/-! ## The call stack -/

/-- Everything a push does: with a free slot, the slot at SP takes the value and SP rises by one; otherwise nothing. -/
theorem State.push_cases (s : State) (w : Word) :
    (∃ h : s.sp.val < 16, s.push w = some { s with stack := s.stack.set s.sp.val w, sp := ⟨s.sp.val + 1, Nat.succ_lt_succ h⟩ }) ∨
      (s.sp.val = 16 ∧ s.push w = none) := by
  by_cases h : s.sp.val < 16
  · exact .inl ⟨h, by simp [State.push, h]⟩
  · exact .inr ⟨by have := s.sp.isLt; omega, by simp [State.push, h]⟩

/-- Everything a pop does: with a live entry, SP falls by one and the entry it then points at is the answer, its slot
unchanged; otherwise nothing. -/
theorem State.pop_cases (s : State) :
    (∃ (k : RegIdx) (j : Fin 17), k.val + 1 = s.sp.val ∧ j.val + 1 = s.sp.val ∧
        s.pop = some (s.stack[k], { s with sp := j })) ∨
      (s.sp.val = 0 ∧ s.pop = none) := by
  by_cases h : 0 < s.sp.val
  · have h16 := s.sp.isLt
    refine .inl ⟨⟨s.sp.val - 1, by omega⟩, ⟨s.sp.val - 1, by omega⟩, ?_, ?_, ?_⟩
    · show s.sp.val - 1 + 1 = s.sp.val; omega
    · show s.sp.val - 1 + 1 = s.sp.val; omega
    · simp [State.pop, h]
  · exact .inr ⟨by omega, by simp [State.pop, h]⟩

/-! ## Register blocks -/

@[simp] theorem State.regBlock_length (s : State) (x : RegIdx) : (s.regBlock x).length = x.val + 1 := by
  have := x.isLt
  simp [State.regBlock]

theorem State.regBlock_getElem (s : State) (x : RegIdx) (k : Nat) (h : k < (s.regBlock x).length) :
    (s.regBlock x)[k] = s.readV ⟨k, by have := x.isLt; simp at h; omega⟩ := by
  simp [State.regBlock, State.readV]

/-- What a register reads as after a block of registers is written from `V[k]` on. -/
theorem State.writeRegs_readV (s : State) (k : Nat) (bs : List Byte) (r : RegIdx) :
    (s.writeRegs k bs).readV r =
      if h : k ≤ r.val ∧ r.val < k + bs.length then bs[r.val - k]'(by omega) else s.readV r := by
  induction bs generalizing s k with
  | nil => rw [dif_neg (by simp)]; rfl
  | cons b bs ih =>
    have hr := r.isLt
    have hw : (if h : k < 16 then s.writeV ⟨k, h⟩ b else s).readV r = if r.val = k then b else s.readV r := by
      split
      · simp only [State.writeV_readV, Fin.ext_iff]
      · rw [if_neg (by omega)]
    rw [State.writeRegs, ih, hw]
    simp only [List.length_cons]
    by_cases h : k + 1 ≤ r.val ∧ r.val < k + 1 + bs.length
    · rw [dif_pos h, dif_pos (by omega)]
      simp only [show r.val - k = (r.val - (k + 1)) + 1 by omega, List.getElem_cons_succ]
    · rw [dif_neg h]
      by_cases hk : r.val = k
      · rw [if_pos hk, dif_pos (by omega)]
        simp [hk]
      · rw [if_neg hk, dif_neg (by omega)]

/-! ## Key scan (R162) -/

/-- The key found is down and every lower one is up. -/
theorem State.firstKey_eq_some {s : State} {k : RegIdx} :
    s.firstKey = some k ↔ s.key[k] = true ∧ ∀ j : RegIdx, j < k → s.key[j] = false := by
  have hmem : ∀ j : RegIdx, j ∈ keyScan := by decide
  have hsorted : keyScan.Pairwise (· < ·) := by decide
  rw [State.firstKey, List.find?_eq_some_iff_append]
  constructor
  · rintro ⟨hk, as, bs, hab, has⟩
    refine ⟨hk, fun j hj => ?_⟩
    have hjm := hmem j
    rw [hab] at hjm hsorted
    rcases List.mem_append.1 hjm with h | h
    · simpa using has j h
    · rcases List.mem_cons.1 h with rfl | h
      · exact absurd hj (lt_irrefl _)
      · have := (List.pairwise_cons.1 (List.pairwise_append.1 hsorted).2.1).1 j h
        exact absurd hj (not_lt.2 this.le)
  · rintro ⟨hk, hlow⟩
    obtain ⟨as, bs, hab⟩ := List.append_of_mem (hmem k)
    refine ⟨hk, as, bs, hab, fun j hj => ?_⟩
    rw [hab] at hsorted
    have : j < k := (List.pairwise_append.1 hsorted).2.2 j hj k (by simp)
    simp [hlow j this]

theorem State.firstKey_eq_none {s : State} : s.firstKey = none ↔ ∀ k : RegIdx, s.key[k] = false := by
  have hmem : ∀ j : RegIdx, j ∈ keyScan := by decide
  simp only [State.firstKey, List.find?_eq_none, Bool.not_eq_true]
  exact ⟨fun h k => h k (hmem k), fun h k _ => h k⟩

/-! ## Fetch and step -/

/-- Everything the fetch does: inside memory, the big-endian word at PC; else none. -/
theorem State.fetch_cases (s : State) :
    (s.pc.toNat + 2 ≤ 4096 ∧ ∃ w, s.fetch = some w ∧
        w.toNat = (s.readByte s.pc.toNat).toNat * 256 + (s.readByte (s.pc.toNat + 1)).toNat) ∨
      (4096 < s.pc.toNat + 2 ∧ s.fetch = none) := by
  by_cases h : s.pc.toNat + 2 ≤ 4096
  · exact .inl ⟨h, _, by simp [State.fetch, h], wordOfBytes_toNat _ _⟩
  · exact .inr ⟨by omega, by simp [State.fetch, h]⟩

end Sys2Proof.Machine
end

