-- ==== Sys2Proof/Laws/Draw.lean ====
section
/-! SUPPORT. The laws of the sprite draw: which cells a sprite lands on, that it lands on each at most once, and what
each cell and the collision flag are after it. -/

namespace Sys2Proof.Machine

/-! ## Where a sprite lands (R152) -/

theorem mem_spriteColumns {b : Byte} {j : Nat} : j ∈ spriteColumns b ↔ j < 8 ∧ b.getLsbD (7 - j) = true := by
  have h8 : j ∈ [0, 1, 2, 3, 4, 5, 6, 7] ↔ j < 8 := by simp; omega
  rw [spriteColumns, List.mem_filter, h8]

/-- The cells of a sprite: row k of it at row `r + k`, its bit `7 - j` at column `c + j`. -/
theorem mem_spriteCells {c r : Nat} {bs : List Byte} {q : CellIdx} :
    q ∈ spriteCells c r bs ↔
      ∃ (k : Nat) (h : k < bs.length) (j : Nat), j < 8 ∧ (bs[k]).getLsbD (7 - j) = true ∧
        q = cellIndex (r + k) (c + j) := by
  induction bs generalizing r with
  | nil => simp [spriteCells]
  | cons b bs ih =>
    rw [spriteCells, List.mem_append, List.mem_map, ih]
    constructor
    · rintro (⟨j, hj, rfl⟩ | ⟨k, hk, j, hj, hb, rfl⟩)
      · rw [mem_spriteColumns] at hj
        exact ⟨0, by simp, j, hj.1, hj.2, rfl⟩
      · exact ⟨k + 1, by simpa using hk, j, hj, hb, by rw [show r + 1 + k = r + (k + 1) by omega]⟩
    · rintro ⟨k, hk, j, hj, hb, rfl⟩
      cases k with
      | zero => exact .inl ⟨j, mem_spriteColumns.2 ⟨hj, hb⟩, rfl⟩
      | succ k => exact .inr ⟨k, by simpa using hk, j, hj, hb, by rw [show r + 1 + k = r + (k + 1) by omega]⟩

theorem cellIndex_inj {r r' c c' : Nat} (h : cellIndex r c = cellIndex r' c') : r % 32 = r' % 32 ∧ c % 64 = c' % 64 := by
  have := congrArg Fin.val h
  simp only [cellIndex] at this
  omega

/-- No two bits of a sprite of at most 32 rows land on the same cell (R152). -/
theorem spriteCells_nodup (c r : Nat) (bs : List Byte) (h : bs.length ≤ 32) : (spriteCells c r bs).Nodup := by
  induction bs generalizing r with
  | nil => exact List.nodup_nil
  | cons b bs ih =>
    simp only [List.length_cons] at h
    rw [spriteCells, List.nodup_append']
    refine ⟨?_, ih (r + 1) (by omega), ?_⟩
    · refine List.Nodup.map_on (fun j hj j' hj' e => ?_) (List.Nodup.filter _ (by decide))
      have := (cellIndex_inj e).2
      have := (mem_spriteColumns.1 hj).1
      have := (mem_spriteColumns.1 hj').1
      omega
    · rintro q hq hq'
      obtain ⟨j, -, rfl⟩ := List.mem_map.1 hq
      obtain ⟨k, hk, j', -, -, e⟩ := mem_spriteCells.1 hq'
      have := (cellIndex_inj e).1
      omega

/-! ## What a draw does to the framebuffer (R153) -/

theorem toggleCell_wf {colour : Pixel} {d : Framebuffer × Bool} (h : d.1.wf = true) (c : CellIdx) :
    (toggleCell colour d c).1.wf = true := by
  rw [toggleCell]; split <;> exact Framebuffer.write_wf h c _

/-- Every cell after one toggle. -/
theorem toggleCell_cell {colour : Pixel} {d : Framebuffer × Bool} (h : d.1.wf = true) (c q : CellIdx) :
    (toggleCell colour d c).1.cell q =
      if q = c then (if d.1.cell q = 0#24 then colour else 0#24) else d.1.cell q := by
  rw [toggleCell]
  split <;> rename_i hz
  · have hz' : d.1.cell c ≠ 0#24 := by simpa using hz
    rw [Framebuffer.write_cell h]
    split <;> rename_i e
    · rw [e, if_neg hz']; rfl
    · rfl
  · have hz' : d.1.cell c = 0#24 := by simpa using hz
    rw [Framebuffer.write_cell h]
    split <;> rename_i e
    · rw [e, if_pos hz']
    · rfl

theorem foldl_toggleCell_wf {colour : Pixel} (cells : List CellIdx) {d : Framebuffer × Bool} (h : d.1.wf = true) :
    (cells.foldl (toggleCell colour) d).1.wf = true := by
  induction cells generalizing d with
  | nil => exact h
  | cons c cells ih => exact ih (toggleCell_wf h c)

/-- A draw keeps the framebuffer's canonical form. -/
theorem drawCells_wf {colour : Pixel} {fb : Framebuffer} (h : fb.wf = true) (cells : List CellIdx) :
    (drawCells colour fb cells).1.wf = true :=
  foldl_toggleCell_wf cells h

theorem foldl_toggleCell_cell {colour : Pixel} (cells : List CellIdx) (hn : cells.Nodup) {d : Framebuffer × Bool}
    (h : d.1.wf = true) (q : CellIdx) :
    (cells.foldl (toggleCell colour) d).1.cell q =
      if q ∈ cells then (if d.1.cell q = 0 then colour else 0) else d.1.cell q := by
  induction cells generalizing d with
  | nil => simp
  | cons c cells ih =>
    rw [List.nodup_cons] at hn
    rw [List.foldl_cons, ih hn.2 (toggleCell_wf h c)]
    by_cases hqc : q = c
    · subst hqc
      simp [hn.1, toggleCell_cell h]
    · simp [toggleCell_cell h, hqc]

/-- Every cell after a draw onto cells no two of which are the same: a target that was lit is off, a target that was
off has the colour, any other cell is unchanged. -/
theorem drawCells_cell {colour : Pixel} {fb : Framebuffer} (h : fb.wf = true) (cells : List CellIdx) (hn : cells.Nodup)
    (q : CellIdx) :
    (drawCells colour fb cells).1.cell q =
      if q ∈ cells then (if fb.cell q = 0 then colour else 0) else fb.cell q :=
  foldl_toggleCell_cell cells hn h q

theorem foldl_toggleCell_hit {colour : Pixel} (cells : List CellIdx) (hn : cells.Nodup) {d : Framebuffer × Bool}
    (h : d.1.wf = true) :
    (cells.foldl (toggleCell colour) d).2 = true ↔ d.2 = true ∨ ∃ q ∈ cells, d.1.cell q ≠ 0 := by
  induction cells generalizing d with
  | nil => simp
  | cons c cells ih =>
    rw [List.nodup_cons] at hn
    rw [List.foldl_cons, ih hn.2 (toggleCell_wf h c)]
    have hcell : ∀ q ∈ cells, (toggleCell colour d c).1.cell q = d.1.cell q := by
      intro q hq
      have hne : q ≠ c := fun e => hn.1 (e ▸ hq)
      rw [toggleCell_cell h, if_neg hne]
    have hflag : (toggleCell colour d c).2 = true ↔ d.2 = true ∨ d.1.cell c ≠ 0 := by
      rw [toggleCell]
      split <;> rename_i hz
      · simpa using Or.inr (bne_iff_ne.1 hz)
      · have hz' : d.1.cell c = 0#24 := by simpa using hz
        simp [hz']
    rw [hflag]
    constructor
    · rintro ((h1 | h1) | ⟨q, hq, h1⟩)
      · exact .inl h1
      · exact .inr ⟨c, by simp, h1⟩
      · exact .inr ⟨q, by simp [hq], by rwa [hcell q hq] at h1⟩
    · rintro (h1 | ⟨q, hq, h1⟩)
      · exact .inl (.inl h1)
      · rcases List.mem_cons.1 hq with rfl | hq
        · exact .inl (.inr h1)
        · exact .inr ⟨q, hq, by rwa [hcell q hq]⟩

/-- The collision flag of a draw: some target was lit before it. -/
theorem drawCells_hit {colour : Pixel} {fb : Framebuffer} (h : fb.wf = true) (cells : List CellIdx) (hn : cells.Nodup) :
    (drawCells colour fb cells).2 = true ↔ ∃ q ∈ cells, fb.cell q ≠ 0 := by
  have := foldl_toggleCell_hit (colour := colour) cells hn (d := (fb, false)) h
  simpa [drawCells] using this

theorem State.drawTargets_nodup (s : State) (x y : RegIdx) (n : Nibble) : (s.drawTargets x y n).Nodup := by
  refine spriteCells_nodup _ _ _ ?_
  have := n.isLt
  simp; omega

/-- The cells a draw lands on, in the spec's words (R150, R152). -/
theorem State.mem_drawTargets {s : State} {x y : RegIdx} {n : Nibble} {q : CellIdx} :
    q ∈ s.drawTargets x y n ↔
      ∃ k j : Nat, k < n.toNat ∧ j < 8 ∧ (s.readByte (s.i.toNat + k)).getLsbD (7 - j) = true ∧
        q = cellIndex ((s.readV y).toNat + k) ((s.readV x).toNat + j) := by
  rw [State.drawTargets, mem_spriteCells]
  constructor
  · rintro ⟨k, hk, j, hj, hb, hq⟩
    rw [State.loadBytes_getElem] at hb
    exact ⟨k, j, by simpa using hk, hj, hb, hq⟩
  · rintro ⟨k, j, hk, hj, hb, hq⟩
    refine ⟨k, by simpa using hk, j, hj, ?_, hq⟩
    rw [State.loadBytes_getElem]
    exact hb

end Sys2Proof.Machine
end

