-- ==== Sys2Proof/Laws/Exec.lean ====
section
/-! SUPPORT. Lemmas about frames, about fetching and stepping, and about what executing any instruction can do to the
stack and to the result: the cases later proofs would otherwise split again and again. -/

namespace Sys2Proof.Machine

/-! ## Frames -/

theorem Loc.same_refl (s : State) (l : Loc) : l.same s s := by cases l <;> rfl

theorem Loc.same_trans {s t u : State} {l : Loc} (h : l.same s t) (h' : l.same t u) : l.same s u := by
  cases l <;> exact h'.trans h

theorem Frame.refl (W : Loc → Prop) (s : State) : Frame W s s := fun l _ => Loc.same_refl s l

theorem Frame.trans {W : Loc → Prop} {s t u : State} (h : Frame W s t) (h' : Frame W t u) : Frame W s u :=
  fun l hl => Loc.same_trans (h l hl) (h' l hl)

theorem Frame.mono {W W' : Loc → Prop} {s t : State} (h : Frame W s t) (hw : ∀ l, W l → W' l) : Frame W' s t :=
  fun l hl => h l (fun hw' => hl (hw l hw'))

/-- What an instruction returned, in the form the ends of an instruction leave it. -/
@[simp] theorem State.returned_emit (s : State) (r : StepResult) (d : Bool) : (s.emit r d).Returned r d := rfl

/-! ## Operand forms as numbers -/

@[simp] theorem extendAddr_toNat (nnn : Addr12) : (extendAddr nnn).toNat = nnn.toNat := by
  have := nnn.isLt
  simp [extendAddr]; omega

@[simp] theorem extendByte_toNat (b : Byte) : (extendByte b).toNat = b.toNat := by
  have := b.isLt
  simp [extendByte]; omega

theorem indexedTarget_toNat (v0 : Byte) (nnn : Addr12) : (indexedTarget v0 nnn).toNat = v0.toNat + nnn.toNat := by
  have := v0.isLt
  have := nnn.isLt
  simp only [indexedTarget, BitVec.toNat_add, extendByte_toNat, extendAddr_toNat]; omega

theorem glyphAddr_toNat (vx : Byte) : (glyphAddr vx).toNat = vx.toNat * 5 := by
  have := vx.isLt
  simp [glyphAddr, BitVec.toNat_mul]; omega

theorem keyIndex_val (vx : Byte) : (keyIndex vx).val = vx.toNat % 16 := by
  have h : (keyIndex vx).val = (vx.extractLsb' 0 4).toNat := rfl
  simp only [h, BitVec.extractLsb'_toNat, Nat.shiftRight_eq_div_pow]; omega

/-- The two ways of saying where a sprite lands. -/
theorem State.spriteCovers_iff {s : State} {x y : RegIdx} {n : Nibble} {c : CellIdx} :
    s.SpriteCovers x y n c ↔ c ∈ s.drawTargets x y n := by
  simp only [State.mem_drawTargets, State.SpriteCovers, Fin.ext_iff, cellIndex]

/-! ## Updates that a block transfer does not see -/

theorem State.storeBytes_comm (f : State → State) (hf : ∀ (s : State) (a : Nat) (b : Byte), (f s).writeByte a b = f (s.writeByte a b))
    (s : State) (a : Nat) (bs : List Byte) : (f s).storeBytes a bs = f (s.storeBytes a bs) := by
  induction bs generalizing s a with
  | nil => rfl
  | cons b bs ih => rw [State.storeBytes, hf, ih]; rfl

theorem State.writeRegs_comm (f : State → State) (hf : ∀ (s : State) (x : RegIdx) (b : Byte), (f s).writeV x b = f (s.writeV x b))
    (s : State) (k : Nat) (bs : List Byte) : (f s).writeRegs k bs = f (s.writeRegs k bs) := by
  induction bs generalizing s k with
  | nil => rfl
  | cons b bs ih =>
    simp only [State.writeRegs, hf]
    split <;> rw [ih]

theorem State.loadBytes_congr {s t : State} (h : ∀ a, t.readByte a = s.readByte a) (a n : Nat) :
    t.loadBytes a n = s.loadBytes a n := by
  induction n generalizing a with
  | zero => rfl
  | succ n ih => rw [State.loadBytes, State.loadBytes, h, ih]

/-! ## Stepping -/

/-- Everything a step does: it executes the decoded word, or the fetch faults. -/
theorem step_cases (s : State) :
    (∃ w, s.fetch = some w ∧ s.pc.toNat + 2 ≤ 4096 ∧ step s = exec (decode w) s) ∨
      (s.fetch = none ∧ 4096 < s.pc.toNat + 2 ∧ step s = .fault .outOfBounds) := by
  rcases s.fetch_cases with ⟨h0, w, hw, -⟩ | ⟨h0, hw⟩
  · exact .inl ⟨w, hw, h0, by rw [step, hw]⟩
  · exact .inr ⟨hw, h0, by rw [step, hw]; rfl⟩

theorem step_eq_next {s t : State} (h : step s = .next t) : ∃ w, s.fetch = some w ∧ exec (decode w) s = .next t := by
  rcases step_cases s with ⟨w, hw, -, he⟩ | ⟨-, -, he⟩
  · exact ⟨w, hw, he ▸ h⟩
  · rw [he] at h; cases h

/-- The fetch depends on PC and memory alone. -/
theorem State.fetch_congr {s t : State} (hpc : t.pc = s.pc) (hm : ∀ a, t.readByte a = s.readByte a) :
    t.fetch = s.fetch := by
  simp only [State.fetch, hpc, hm]

/-! ## What any instruction can do -/

/-- Everything an instruction can do to the call stack: a call pushes PC + 2 and jumps, a return pops into PC, and no
other instruction touches SP or STACK. -/
theorem exec_stack_cases {i : Instr} {s t : State} (h : exec i s = .next t) :
    (∃ nnn, i = .call nnn ∧ ∃ u, s.push (s.pc + 2) = some u ∧ t = (u.writePc (extendAddr nnn)).emit .cont false) ∨
      (i = .ret ∧ ∃ target u, s.pop = some (target, u) ∧ t = (u.writePc target).emit .cont false) ∨
      (t.sp = s.sp ∧ t.stack = s.stack) := by
  cases i
  all_goals simp only [exec] at h
  case ret =>
    simp only [execRet] at h
    split at h
    · rename_i target u hp
      exact .inr (.inl ⟨rfl, target, u, hp, complete_eq_next.1 h⟩)
    · exact absurd h raise_ne_next
  case call nnn =>
    simp only [execCall] at h
    split at h
    · rename_i u hp
      exact .inl ⟨nnn, rfl, u, hp, complete_eq_next.1 h⟩
    · exact absurd h raise_ne_next
  case halt => simp only [execHalt, Host.Outcome.next.injEq] at h; simp [← h]
  case drw x y n => simp only [execDrw] at h; split at h <;> simp_all
  case ldB x => simp only [execLdB] at h; split at h <;> simp_all
  case storeRegs x => simp only [execStoreRegs] at h; split at h <;> simp_all
  case loadRegs x => simp only [execLoadRegs] at h; split at h <;> simp_all
  case ldVxK x => simp only [execLdVxK] at h; split at h <;> simp_all
  all_goals simp_all [execCls, execUnk, execJp, execSeImm, execSneImm, execSeReg, execSneReg, execJpV0, execLdImm,
    execAddImm, execLdI, execRnd, rndWith, execLdReg, execOrReg, execAndReg, execXorReg, execAddReg, execSubReg,
    execSubnReg, execShrReg, execShlReg, flagThenResult, resultThenFlag, execSkp, execSknp, execLdVxDt, execLdDt,
    execLdSt, execAddI, execLdF]

/-- HALT is the one instruction whose result is `Halt`; every other one that completes returns `Continue`. -/
theorem exec_result {i : Instr} {s t : State} (h : exec i s = .next t) :
    t.out.result = if i = .halt then .halt else .cont := by
  cases i
  all_goals simp only [exec] at h
  case ret => simp only [execRet] at h; split at h <;> simp_all
  case call nnn => simp only [execCall] at h; split at h <;> simp_all
  case halt => simp only [execHalt, Host.Outcome.next.injEq] at h; simp [← h]
  case drw x y n => simp only [execDrw] at h; split at h <;> simp_all
  case ldB x => simp only [execLdB] at h; split at h <;> simp_all
  case storeRegs x => simp only [execStoreRegs] at h; split at h <;> simp_all
  case loadRegs x => simp only [execLoadRegs] at h; split at h <;> simp_all
  case ldVxK x => simp only [execLdVxK] at h; split at h <;> simp_all
  all_goals simp_all [execCls, execUnk, execJp, execSeImm, execSneImm, execSeReg, execSneReg, execJpV0, execLdImm,
    execAddImm, execLdI, execRnd, rndWith, execLdReg, execOrReg, execAndReg, execXorReg, execAddReg, execSubReg,
    execSubnReg, execShrReg, execShlReg, flagThenResult, resultThenFlag, execSkp, execSknp, execLdVxDt, execLdDt,
    execLdSt, execAddI, execLdF]

end Sys2Proof.Machine
end

