-- ==== Sys2Proof/Laws/PerInstr.lean ====
section
/-! SUPPORT. Statements made once per instruction. `OpNibble`: the top nibble of an instruction's word is its family
(spec/30_encoding.md R74, R75); a well-formed UNK is in family 0, 8, E or F (R77). -/

namespace Sys2Proof.Laws

/-- The family of an instruction's pattern (R75); UNK has none of its own. -/
def OpNibble.family : Instr → Option Nibble
  | .cls => some 0x0
  | .ret => some 0x0
  | .halt => some 0x0
  | .jp _ => some 0x1
  | .call _ => some 0x2
  | .seImm _ _ => some 0x3
  | .sneImm _ _ => some 0x4
  | .seReg _ _ _ => some 0x5
  | .ldImm _ _ => some 0x6
  | .addImm _ _ => some 0x7
  | .ldReg _ _ => some 0x8
  | .orReg _ _ => some 0x8
  | .andReg _ _ => some 0x8
  | .xorReg _ _ => some 0x8
  | .addReg _ _ => some 0x8
  | .subReg _ _ => some 0x8
  | .shrReg _ _ => some 0x8
  | .subnReg _ _ => some 0x8
  | .shlReg _ _ => some 0x8
  | .sneReg _ _ _ => some 0x9
  | .ldI _ => some 0xA
  | .jpV0 _ => some 0xB
  | .rnd _ _ => some 0xC
  | .drw _ _ _ => some 0xD
  | .skp _ => some 0xE
  | .sknp _ => some 0xE
  | .ldVxDt _ => some 0xF
  | .ldVxK _ => some 0xF
  | .ldDt _ => some 0xF
  | .ldSt _ => some 0xF
  | .addI _ => some 0xF
  | .ldF _ => some 0xF
  | .ldB _ => some 0xF
  | .storeRegs _ => some 0xF
  | .loadRegs _ => some 0xF
  | .unk _ => none

/-- The top nibble of the word of an instruction is its family; that of a well-formed UNK is 0, 8, E or F. -/
def OpNibble.Statement (i : Instr) : Prop :=
  i.wf = true →
    match OpNibble.family i with
    | some f => fieldOp (encode i) = f
    | none => fieldOp (encode i) = 0x0 ∨ fieldOp (encode i) = 0x8 ∨ fieldOp (encode i) = 0xE ∨ fieldOp (encode i) = 0xF

theorem OpNibble.cls : OpNibble.Statement .cls := fun _ => (rfl : fieldOp 0x00E0 = 0x0)
theorem OpNibble.ret : OpNibble.Statement .ret := fun _ => (rfl : fieldOp 0x00EE = 0x0)
theorem OpNibble.halt : OpNibble.Statement .halt := fun _ => (rfl : fieldOp 0x0000 = 0x0)
theorem OpNibble.jp (nnn : Addr12) : OpNibble.Statement (.jp nnn) := fun _ => fieldOp_packA _ _
theorem OpNibble.call (nnn : Addr12) : OpNibble.Statement (.call nnn) := fun _ => fieldOp_packA _ _
theorem OpNibble.seImm (x : RegIdx) (kk : Byte) : OpNibble.Statement (.seImm x kk) := fun _ => fieldOp_packXK _ _ _
theorem OpNibble.sneImm (x : RegIdx) (kk : Byte) : OpNibble.Statement (.sneImm x kk) := fun _ => fieldOp_packXK _ _ _
theorem OpNibble.seReg (x : RegIdx) (y : RegIdx) (n : Nibble) : OpNibble.Statement (.seReg x y n) := fun _ => fieldOp_packXYN _ _ _ _
theorem OpNibble.ldImm (x : RegIdx) (kk : Byte) : OpNibble.Statement (.ldImm x kk) := fun _ => fieldOp_packXK _ _ _
theorem OpNibble.addImm (x : RegIdx) (kk : Byte) : OpNibble.Statement (.addImm x kk) := fun _ => fieldOp_packXK _ _ _
theorem OpNibble.ldReg (x : RegIdx) (y : RegIdx) : OpNibble.Statement (.ldReg x y) := fun _ => fieldOp_packXYN _ _ _ _
theorem OpNibble.orReg (x : RegIdx) (y : RegIdx) : OpNibble.Statement (.orReg x y) := fun _ => fieldOp_packXYN _ _ _ _
theorem OpNibble.andReg (x : RegIdx) (y : RegIdx) : OpNibble.Statement (.andReg x y) := fun _ => fieldOp_packXYN _ _ _ _
theorem OpNibble.xorReg (x : RegIdx) (y : RegIdx) : OpNibble.Statement (.xorReg x y) := fun _ => fieldOp_packXYN _ _ _ _
theorem OpNibble.addReg (x : RegIdx) (y : RegIdx) : OpNibble.Statement (.addReg x y) := fun _ => fieldOp_packXYN _ _ _ _
theorem OpNibble.subReg (x : RegIdx) (y : RegIdx) : OpNibble.Statement (.subReg x y) := fun _ => fieldOp_packXYN _ _ _ _
theorem OpNibble.shrReg (x : RegIdx) (y : RegIdx) : OpNibble.Statement (.shrReg x y) := fun _ => fieldOp_packXYN _ _ _ _
theorem OpNibble.subnReg (x : RegIdx) (y : RegIdx) : OpNibble.Statement (.subnReg x y) := fun _ => fieldOp_packXYN _ _ _ _
theorem OpNibble.shlReg (x : RegIdx) (y : RegIdx) : OpNibble.Statement (.shlReg x y) := fun _ => fieldOp_packXYN _ _ _ _
theorem OpNibble.sneReg (x : RegIdx) (y : RegIdx) (n : Nibble) : OpNibble.Statement (.sneReg x y n) := fun _ => fieldOp_packXYN _ _ _ _
theorem OpNibble.ldI (nnn : Addr12) : OpNibble.Statement (.ldI nnn) := fun _ => fieldOp_packA _ _
theorem OpNibble.jpV0 (nnn : Addr12) : OpNibble.Statement (.jpV0 nnn) := fun _ => fieldOp_packA _ _
theorem OpNibble.rnd (x : RegIdx) (kk : Byte) : OpNibble.Statement (.rnd x kk) := fun _ => fieldOp_packXK _ _ _
theorem OpNibble.drw (x : RegIdx) (y : RegIdx) (n : Nibble) : OpNibble.Statement (.drw x y n) := fun _ => fieldOp_packXYN _ _ _ _
theorem OpNibble.skp (x : RegIdx) : OpNibble.Statement (.skp x) := fun _ => fieldOp_packXK _ _ _
theorem OpNibble.sknp (x : RegIdx) : OpNibble.Statement (.sknp x) := fun _ => fieldOp_packXK _ _ _
theorem OpNibble.ldVxDt (x : RegIdx) : OpNibble.Statement (.ldVxDt x) := fun _ => fieldOp_packXK _ _ _
theorem OpNibble.ldVxK (x : RegIdx) : OpNibble.Statement (.ldVxK x) := fun _ => fieldOp_packXK _ _ _
theorem OpNibble.ldDt (x : RegIdx) : OpNibble.Statement (.ldDt x) := fun _ => fieldOp_packXK _ _ _
theorem OpNibble.ldSt (x : RegIdx) : OpNibble.Statement (.ldSt x) := fun _ => fieldOp_packXK _ _ _
theorem OpNibble.addI (x : RegIdx) : OpNibble.Statement (.addI x) := fun _ => fieldOp_packXK _ _ _
theorem OpNibble.ldF (x : RegIdx) : OpNibble.Statement (.ldF x) := fun _ => fieldOp_packXK _ _ _
theorem OpNibble.ldB (x : RegIdx) : OpNibble.Statement (.ldB x) := fun _ => fieldOp_packXK _ _ _
theorem OpNibble.storeRegs (x : RegIdx) : OpNibble.Statement (.storeRegs x) := fun _ => fieldOp_packXK _ _ _
theorem OpNibble.loadRegs (x : RegIdx) : OpNibble.Statement (.loadRegs x) := fun _ => fieldOp_packXK _ _ _
theorem OpNibble.unk (w : Word) : OpNibble.Statement (.unk w) := by
  intro h
  simp only [Instr.wf, isUnrecognised, Bool.or_eq_true, Bool.and_eq_true, beq_iff_eq] at h
  rcases h with ((h | h) | h) | h
  · exact .inl h.1
  · exact .inr (.inl h.1)
  · exact .inr (.inr (.inl h.1))
  · exact .inr (.inr (.inr h.1))

end Sys2Proof.Laws
end

