-- ==== Sys2Proof/Laws/Transactions.lean ====
section
/-! SUPPORT. What a transaction can do, said once, and the laws of sequences of them and of a host's run (R206, R211). -/

namespace Sys2Proof.Machine

/-! ## One transaction -/

/-- A step that completes returns `Continue` or `Halt`. -/
theorem step_result {s t : State} (h : step s = .next t) : t.out.result = .cont ∨ t.out.result = .halt := by
  obtain ⟨w, -, he⟩ := step_eq_next h
  have := exec_result he
  split at this
  · exact .inr this
  · exact .inl this

/-- No instruction is refused. -/
theorem exec_ne_refused {i : Instr} {s : State} {r : Refusal} : exec i s ≠ .refused r := by
  cases i
  all_goals simp only [exec]
  case ret => simp only [execRet]; split <;> simp [complete, raise]
  case call => simp only [execCall]; split <;> simp [complete, raise]
  case drw => simp only [execDrw]; split <;> simp [complete, raise]
  case ldB => simp only [execLdB]; split <;> simp [completeNext, complete, raise]
  case storeRegs => simp only [execStoreRegs]; split <;> simp [completeNext, complete, raise]
  case loadRegs => simp only [execLoadRegs]; split <;> simp [completeNext, complete, raise]
  case ldVxK => simp only [execLdVxK]; split <;> simp [completeNext, complete]
  all_goals simp [execCls, execUnk, execHalt, execJp, execSeImm, execSneImm, execSeReg, execSneReg, execJpV0,
    execLdImm, execAddImm, execLdI, execRnd, rndWith, execLdReg, execOrReg, execAndReg, execXorReg, execAddReg,
    execSubReg, execSubnReg, execShrReg, execShlReg, flagThenResult, resultThenFlag, execSkp, execSknp, execLdVxDt,
    execLdDt, execLdSt, execAddI, execLdF, completeNext, completeSkip, complete]

theorem step_ne_refused {s : State} {r : Refusal} : step s ≠ .refused r := by
  rcases step_cases s with ⟨w, -, -, h⟩ | ⟨-, -, h⟩ <;> rw [h]
  · exact exec_ne_refused
  · simp

/-- Everything the step transaction does: it hands on the outputs of a step that completes, or a fault's code with
nothing but the record of the outputs changed. -/
theorem stepTransaction_cases (s : State) :
    (∃ t, step s = .next t ∧ stepTransaction s = .next (t, .stepped t.out.result t.out.dirty)) ∨
      (∃ f, step s = .fault f ∧ stepTransaction s = .next (s.emit f.code false, .stepped f.code false)) := by
  cases h : step s with
  | next t => exact .inl ⟨t, rfl, by rw [stepTransaction, h]⟩
  | fault f => exact .inr ⟨f, rfl, by rw [stepTransaction, h]⟩
  | refused r => exact absurd h step_ne_refused

/-- Everything the load transaction does. -/
theorem loadTransaction_cases (bytes : List Byte) (overlay : Option (List OverlayRec)) (s : State) :
    (s.loaded = true ∧ loadTransaction bytes overlay s = .refused .reloadNotSupported) ∨
      (s.loaded = false ∧ progMax < bytes.length ∧ loadTransaction bytes overlay s = .next (s, .loadError)) ∨
      (s.loaded = false ∧ bytes.length ≤ progMax ∧
        loadTransaction bytes overlay s = .next (loadProgram bytes overlay s, .loadOk)) := by
  by_cases hl : s.loaded = true
  · exact .inl ⟨hl, by simp [loadTransaction, hl]⟩
  · by_cases hb : progMax < bytes.length
    · exact .inr (.inl ⟨by simpa using hl, hb, by simp [loadTransaction, hl, hb]⟩)
    · exact .inr (.inr ⟨by simpa using hl, by omega, by simp [loadTransaction, hl, hb]⟩)

/-- An accepted overlay never has exactly one record (R254). -/
theorem acceptOverlay_length (overlay : Option (List OverlayRec)) : (acceptOverlay overlay).length ≠ 1 := by
  match overlay with
  | none | some [] | some [_] => simp [acceptOverlay]
  | some (_ :: _ :: _) => simp [acceptOverlay]

/-! ## Sequences of transactions -/

/-- A sequence is its first part and then the rest. -/
theorem transactAll_append (pre post : List Transaction) (s : State) :
    transactAll (pre ++ post) s =
      match transactAll pre s with
      | .next u => transactAll post u
      | .fault f => .fault f
      | .refused r => .refused r := by
  induction pre generalizing s with
  | nil => rfl
  | cons tx pre ih =>
    simp only [List.cons_append, transactAll]
    split
    · exact ih _
    · rfl
    · rfl

/-! ## A host's run (R211) -/

@[simp] theorem runHost_nil (s : State) : runHost [] s = .running s := rfl

/-- What one step adds to a run: it goes on after `Continue`, ends at `Halt`, faults at a fault. -/
theorem runHost_step (ts : List Transaction) (s : State) :
    runHost (.step :: ts) s =
      match step s with
      | .next t => if t.out.result = .halt then .ended t else runHost ts t
      | .fault f => .faulted f
      | .refused r => .refused r := by
  rcases stepTransaction_cases s with ⟨t, h, ht⟩ | ⟨f, h, ht⟩
  · rw [runHost, transact, ht, h]
    rcases step_result h with hr | hr <;> simp [Reply.code, hr]
  · rw [runHost, transact, ht, h]
    cases f <;> rfl

/-- The other transactions never end a run. -/
theorem runHost_of_ne_step {tx : Transaction} (hne : tx ≠ .step) (ts : List Transaction) (s : State) :
    runHost (tx :: ts) s =
      match transact tx s with
      | .next (t, _) => runHost ts t
      | .fault f => .faulted f
      | .refused r => .refused r := by
  cases tx with
  | step => exact absurd rfl hne
  | load bytes overlay =>
    rcases loadTransaction_cases bytes overlay s with ⟨-, h⟩ | ⟨-, -, h⟩ | ⟨-, -, h⟩ <;>
      simp [runHost, transact, h, Reply.code]
  | tick => rfl
  | setKeys k => rfl
  | fbRead c => rfl

/-- A run is its first part and then, where that has not ended, the rest. -/
theorem runHost_append (pre post : List Transaction) (s : State) :
    runHost (pre ++ post) s =
      match runHost pre s with
      | .running u => runHost post u
      | .ended t => .ended t
      | .faulted f => .faulted f
      | .refused r => .refused r := by
  induction pre generalizing s with
  | nil => rfl
  | cons tx pre ih =>
    by_cases hs : tx = .step
    · subst hs
      rw [List.cons_append, runHost_step, runHost_step]
      cases step s with
      | next t => by_cases hr : t.out.result = .halt <;> simp [hr, ih]
      | fault f => rfl
      | refused r => rfl
    · rw [List.cons_append, runHost_of_ne_step hs, runHost_of_ne_step hs]
      cases transact tx s with
      | next p => exact ih p.1
      | fault f => rfl
      | refused r => rfl

/-- The run of a host that issues steps alone. -/
theorem runsToHalt_eq_some_iff (n : Nat) (s t : State) :
    runsToHalt n s = some t ↔ runHost (List.replicate n .step) s = .ended t := by
  induction n generalizing s with
  | zero => simp [runsToHalt]
  | succ n ih =>
    rw [List.replicate_succ, runHost_step, runsToHalt]
    cases step s with
    | next u => by_cases hr : u.out.result = .halt <;> simp [hr, ih]
    | fault f => simp
    | refused r => simp

end Sys2Proof.Machine
end

