-- ==== Sys2Proof/Tests/Slice0.lean ====
section
/-! SUPPORT. The model's own tests: the smoke tests of WellFormed, the decoding of words written out from the patterns
of R75, one step per instruction from the vectors of spec/95_test_vectors.md (S, T) and the examples of the rules, and a
state that meets the hypotheses of every statement that has some (`wit_…`), at the boundaries of its clauses. -/

namespace Sys2Proof.Tests

open Sys2Proof.Machine

/-! ## WellFormed: each check refuses an ill-formed term -/

theorem test_wf_family0 : (Instr.unk 0x00E0).wf = false ∧ (Instr.unk 0x00EE).wf = false ∧ (Instr.unk 0x0000).wf = false := by decide
theorem test_wf_family8 : (Instr.unk 0x8127).wf = false ∧ (Instr.unk 0x812E).wf = false := by decide
theorem test_wf_familyE : (Instr.unk 0xE19E).wf = false ∧ (Instr.unk 0xE1A1).wf = false := by decide
theorem test_wf_familyF : (Instr.unk 0xF107).wf = false ∧ (Instr.unk 0xF165).wf = false := by decide
theorem test_wf_no_unk_elsewhere : (Instr.unk 0x1200).wf = false ∧ (Instr.unk 0x5AB7).wf = false ∧ (Instr.unk 0xD120).wf = false := by decide
theorem test_wf_accepts : (Instr.unk 0x00FF).wf = true ∧ (Instr.unk 0x812F).wf = true ∧ (Instr.unk 0xE19F).wf = true ∧ (Instr.unk 0xF100).wf = true := by decide

/-! ## Decode: one word for every constructor, written out from R75 and R71 -/

theorem test_decode_family0 : decode 0b0000000011100000 = .cls ∧ decode 0b0000000011101110 = .ret ∧ decode 0 = .halt ∧
    decode 0x01E0 = .unk 0x01E0 := by decide
theorem test_decode_flow : decode 0b0001001000000100 = .jp 0x204 ∧ decode 0b0010001000001010 = .call 0x20A ∧
    decode 0b1011001011110000 = .jpV0 0x2F0 := by decide
theorem test_decode_skips : decode 0b0011001100101010 = .seImm 3 0x2A ∧ decode 0b0100001100101011 = .sneImm 3 0x2B ∧
    decode 0b0101101010110111 = .seReg 0xA 0xB 7 ∧ decode 0b1001000100101111 = .sneReg 1 2 0xF := by decide
theorem test_decode_immediates : decode 0b0110101000101111 = .ldImm 0xA 0x2F ∧ decode 0b0111000000000010 = .addImm 0 2 ∧
    decode 0b1010001000001100 = .ldI 0x20C ∧ decode 0b1100001110100101 = .rnd 3 0xA5 := by decide
theorem test_decode_alu_low : decode 0b1000101010110000 = .ldReg 0xA 0xB ∧ decode 0b1000101010110001 = .orReg 0xA 0xB ∧
    decode 0b1000101010110010 = .andReg 0xA 0xB ∧ decode 0b1000101010110011 = .xorReg 0xA 0xB ∧
    decode 0b1000101010110100 = .addReg 0xA 0xB := by decide
theorem test_decode_alu_high : decode 0b1000101010110101 = .subReg 0xA 0xB ∧ decode 0b1000101010110110 = .shrReg 0xA 0xB ∧
    decode 0b1000101010110111 = .subnReg 0xA 0xB ∧ decode 0b1000101010111110 = .shlReg 0xA 0xB ∧
    decode 0b1000101010111001 = .unk 0x8AB9 := by decide
theorem test_decode_draw_keys : decode 0b1101000100100101 = .drw 1 2 5 ∧ decode 0b1110010010011110 = .skp 4 ∧
    decode 0b1110010010100001 = .sknp 4 ∧ decode 0b1110000010011111 = .unk 0xE09F := by decide
theorem test_decode_timers : decode 0b1111001000000111 = .ldVxDt 2 ∧ decode 0b1111010100001010 = .ldVxK 5 ∧
    decode 0b1111001000010101 = .ldDt 2 ∧ decode 0b1111001000011000 = .ldSt 2 := by decide
theorem test_decode_index_memory : decode 0b1111001100011110 = .addI 3 ∧ decode 0b1111001100101001 = .ldF 3 ∧
    decode 0b1111001100110011 = .ldB 3 ∧ decode 0b1111001101010101 = .storeRegs 3 ∧
    decode 0b1111001101100101 = .loadRegs 3 ∧ decode 0b1111001101110101 = .unk 0xF375 := by decide
/-- R53: the byte at the lower address is the high byte of the word; the rest of the list is handed back. -/
theorem test_decode_bytes : decodeBytes [0x12, 0x03, 0x61] = .ok (.jp 0x203, [0x61]) ∧ decodeBytes [0x12] = .error .truncated := by
  exact ⟨rfl, rfl⟩

/-! ## One step -/

/-- The launch state with a word at 0x200 and nothing else loaded. -/
def launch (w : Word) : State := (State.reset.writePc 0x200).placeWord w

/-- Registers set. -/
def withV (vs : List (RegIdx × Byte)) (s : State) : State := vs.foldl (fun t p => t.writeV p.1 p.2) s

/-- The next state satisfies a check. -/
def ends (o : Host.Outcome State Fault Refusal) (check : State → Bool) : Bool :=
  match o with
  | .next t => check t
  | _ => false

/-- The step faults this way. -/
def faults (o : Host.Outcome State Fault Refusal) (f : Fault) : Bool :=
  match o with
  | .fault g => g == f
  | _ => false

/-- V1, V2 and VF before a word, then V1 and VF after it. -/
def alu (v1 v2 : Byte) (w : Word) : List Byte :=
  match step (withV [(1, v1), (2, v2), (15, 0x55)] (launch w)) with
  | .next t => [t.readV 1, t.readV 15]
  | _ => []

/-- T0.1, T0.2. -/
theorem test_cls : ends (step ((launch 0x00E0).writeFb [(5, 0xFFFFFF), (2047, 0x00FF00)]))
    (fun t => t.fb == [] && t.pc == 0x202 && t.out.dirty) = true := by decide
/-- T0.3. -/
theorem test_ret : ends (exec .ret { State.reset with sp := 2, stack := State.reset.stack.set 1 0x206 })
    (fun t => t.sp == 1 && t.pc == 0x206 && t.stack[1] == 0x206) = true := by decide
/-- T0.5. -/
theorem test_ret_empty : faults (step (launch 0x00EE)) .stackFault = true := by decide
/-- T0.6. -/
theorem test_halt : ends (step (launch 0x0000)) (fun t => t.pc == 0x200 && t.out.result == .halt) = true := by decide
/-- T0.8, T0.9. -/
theorem test_unk : ends (step ((launch 0x01E0).writeFb [(0, 0xFFFFFF)]))
    (fun t => t.fb == [(0, 0xFFFFFF)] && t.pc == 0x202 && t.out.result == .cont) = true := by decide
/-- T1.3. -/
theorem test_jp : ends (step (launch 0x1FFF)) (fun t => t.pc == 0xFFF && faults (step t) .outOfBounds) = true := by decide
/-- T1.8. -/
theorem test_call : ends (exec (.call 0xABC) (State.reset.writePc 0xFFE))
    (fun t => t.stack[0] == 0x1000 && t.sp == 1 && t.pc == 0xABC) = true := by decide
/-- T1.7. -/
theorem test_call_full : faults (step { launch 0x2300 with sp := 16 }) .stackFault = true := by decide
/-- T1.9 and S6. -/
theorem test_seImm : ends (step (withV [(15, 1)] (launch 0x3F01))) (fun t => t.pc == 0x204) = true ∧
    ends (step (withV [(3, 0x2A)] (launch 0x332B))) (fun t => t.pc == 0x202) = true := by decide
/-- S6. -/
theorem test_sneImm : ends (step (withV [(3, 0x2A)] (launch 0x432B))) (fun t => t.pc == 0x204) = true ∧
    ends (step (withV [(3, 0x2A)] (launch 0x432A))) (fun t => t.pc == 0x202) = true := by decide
/-- T1.13 and S6. -/
theorem test_seReg : ends (step (withV [(1, 7), (2, 7)] (launch 0x5127))) (fun t => t.pc == 0x204) = true ∧
    ends (step (withV [(1, 7), (2, 8)] (launch 0x5120))) (fun t => t.pc == 0x202) = true := by decide
/-- T1.14 and S6. -/
theorem test_sneReg : ends (step (withV [(1, 7), (2, 8)] (launch 0x912F))) (fun t => t.pc == 0x204) = true ∧
    ends (step (withV [(1, 7), (2, 7)] (launch 0x9120))) (fun t => t.pc == 0x202) = true := by decide
/-- T1.16, and T1.18: the x field is part of nnn. -/
theorem test_jpV0 : ends (step (withV [(0, 0xFF)] (launch 0xBFFF))) (fun t => t.pc == 0x10FE) = true ∧
    ends (step (withV [(0, 2), (1, 0x99)] (launch 0xB1FE))) (fun t => t.pc == 0x200) = true := by decide
/-- T2.2. -/
theorem test_ldImm : ends (step (launch 0x6F07)) (fun t => t.readV 15 == 7 && t.pc == 0x202) = true := by decide
/-- T2.3, T2.7. -/
theorem test_addImm : ends (step (withV [(0, 0xFF)] (launch 0x7002))) (fun t => t.readV 0 == 1 && t.readV 15 == 0) = true ∧
    ends (step (withV [(15, 0xFF)] (launch 0x7F01))) (fun t => t.readV 15 == 0) = true := by decide
/-- T2.9. -/
theorem test_ldI : ends (step ((launch 0xAFFF).writeI 0x1234)) (fun t => t.i == 0x0FFF) = true := by decide
/-- T2.10, T2.13: the draw given. -/
theorem test_rnd : ends (rndWith 0xB7 3 0x0F State.reset) (fun t => t.readV 3 == 0x07) = true ∧
    ends (rndWith 0xFF 3 0xA5 State.reset) (fun t => t.readV 3 == 0xA5 && t.pc == 2) = true := by decide
/-- T3.1, T3.53. -/
theorem test_ldReg : alu 0x00 0x5A 0x8120 = [0x5A, 0x55] ∧ alu 0x5A 0x00 0x8F10 = [0x5A, 0x5A] := by decide
/-- T3.2. -/
theorem test_orReg : alu 0xF0 0x0F 0x8121 = [0xFF, 0x55] := by decide
/-- T3.3. -/
theorem test_andReg : alu 0xF3 0x3C 0x8122 = [0x30, 0x55] := by decide
/-- T3.4. -/
theorem test_xorReg : alu 0xF3 0x3C 0x8123 = [0xCF, 0x55] := by decide
/-- T3.6, T3.8. -/
theorem test_addReg : alu 0xFF 0x01 0x8124 = [0x00, 0x01] ∧ alu 0x80 0x7F 0x8124 = [0xFF, 0x00] := by decide
/-- T3.40: the result is written last and the carry is lost. -/
theorem test_addReg_vf : ends (step (withV [(15, 0x07), (1, 0xFF)] (launch 0x8F14))) (fun t => t.readV 15 == 0x06) = true := by decide
/-- T3.10, T3.12. -/
theorem test_subReg : alu 0x10 0x20 0x8125 = [0xF0, 0x00] ∧ alu 0x05 0x05 0x8125 = [0x00, 0x00] := by decide
/-- T3.43. -/
theorem test_subReg_vf : ends (step (withV [(15, 0x07), (1, 0x09)] (launch 0x8F15))) (fun t => t.readV 15 == 0xFE) = true := by decide
/-- T3.15, T3.16: Vy is shifted, not Vx. -/
theorem test_shrReg : alu 0xAA 0x07 0x8126 = [0x03, 0x01] ∧ alu 0xAA 0x80 0x8126 = [0x40, 0x00] := by decide
/-- T3.48: the flag is written last. -/
theorem test_shrReg_vf : alu 0x03 0x00 0x8F16 = [0x03, 0x01] := by decide
/-- T3.20, T3.21. -/
theorem test_subnReg : alu 0x20 0x10 0x8127 = [0xF0, 0x00] ∧ alu 0x05 0x05 0x8127 = [0x00, 0x01] := by decide
/-- T3.46. -/
theorem test_subnReg_vf : ends (step (withV [(15, 0x07), (1, 0x09)] (launch 0x81F7)))
    (fun t => t.readV 1 == 0xFE && t.readV 15 == 0) = true := by decide
/-- T3.23, T3.25. -/
theorem test_shlReg : alu 0x00 0xC1 0x812E = [0x82, 0x01] ∧ alu 0x00 0x7F 0x812E = [0xFE, 0x00] := by decide
/-- T3.51: bit 7 of 0x40 is the flag, the shifted 0x80 is lost. -/
theorem test_shlReg_vf : alu 0x40 0x00 0x8F1E = [0x40, 0x00] := by decide
/-- T4.4: the sprite C0 in the corner, one cell off, one lit in another colour. -/
theorem test_drw : ends (step ((((withV [(1, 62), (2, 31)] (launch 0xD121)).writeI 0x20C).writeByte 0x20C 0xC0).writeFb [(2047, 0x00FF00)]))
    (fun t => t.fb == [(2046, 0xFFFFFF)] && t.readV 15 == 1 && t.out.dirty && t.pc == 0x202) = true := by decide +kernel
/-- T4.2: Vx = 70 is column 6, Vy = 33 is row 1. -/
theorem test_drw_wrap : ends (step (((withV [(1, 70), (2, 33)] (launch 0xD121)).writeI 0x20C).writeByte 0x20C 0x80))
    (fun t => t.fb == [(70, 0xFFFFFF)] && t.readV 15 == 0) = true := by decide +kernel
/-- T5.3, T5.2. -/
theorem test_skp : ends (step { withV [(4, 0x1A)] (launch 0xE49E) with key := State.reset.key.set 10 true })
      (fun t => t.pc == 0x204) = true ∧
    ends (step (withV [(4, 0x07)] (launch 0xE49E))) (fun t => t.pc == 0x202) = true := by decide
/-- T5.4, T5.5. -/
theorem test_sknp : ends (step (withV [(4, 0x07)] (launch 0xE4A1))) (fun t => t.pc == 0x204) = true ∧
    ends (step { withV [(4, 0x07)] (launch 0xE4A1) with key := State.reset.key.set 7 true })
      (fun t => t.pc == 0x202) = true := by decide
/-- T5.6. -/
theorem test_ldVxK : ends (step { withV [(5, 0xEE)] (launch 0xF50A) with key := (State.reset.key.set 3 true).set 9 true })
    (fun t => t.readV 5 == 3 && t.pc == 0x202) = true := by decide
/-- T5.7. -/
theorem test_ldVxK_waits : ends (step (withV [(5, 0xEE)] (launch 0xF50A)))
    (fun t => t.readV 5 == 0xEE && t.pc == 0x200 && t.out.result == .cont) = true := by decide
/-- T6.1. -/
theorem test_ldVxDt : ends (step ((launch 0xF207).writeDt 0x3C)) (fun t => t.readV 2 == 0x3C && t.dt == 0x3C) = true := by decide
/-- T6.2. -/
theorem test_ldDt : ends (step (withV [(2, 0x3C)] (launch 0xF215))) (fun t => t.dt == 0x3C && t.st == 0) = true := by decide
/-- T6.4. -/
theorem test_ldSt : ends (step (withV [(2, 0x05)] (launch 0xF218))) (fun t => t.st == 5 && t.dt == 0) = true := by decide
/-- T6.7. -/
theorem test_addI : ends (step ((withV [(1, 2)] (launch 0xF11E)).writeI 0xFFFF)) (fun t => t.i == 1 && t.readV 15 == 0) = true := by decide
/-- T6.9: all 8 bits of Vx. -/
theorem test_ldF : ends (step (withV [(3, 0xFF)] (launch 0xF329))) (fun t => t.i == 0x04FB) = true := by decide
/-- T6.12. -/
theorem test_ldB : ends (step ((withV [(0, 0xFF)] (launch 0xF033)).writeI 0xFFD))
    (fun t => t.loadBytes 0xFFD 3 == [2, 5, 5] && t.pc == 0x202) = true := by decide
/-- T6.13. -/
theorem test_ldB_out : faults (step ((withV [(0, 0x7B)] (launch 0xF033)).writeI 0xFFE)) .outOfBounds = true := by decide
/-- T6.14: V0..Vx, and no more; I unchanged. -/
theorem test_storeRegs : ends (step ((withV [(0, 0x11), (1, 0x22), (2, 0x33), (3, 0x44)] (launch 0xF255)).writeI 0x400))
    (fun t => t.loadBytes 0x400 4 == [0x11, 0x22, 0x33, 0] && t.i == 0x400) = true := by decide
/-- T6.20: the font is writable, and memory keeps its canonical form. -/
theorem test_storeRegs_font : ends (step (launch 0xF455))
    (fun t => t.loadBytes 0 6 == [0, 0, 0, 0, 0, 0x20] && t.mem.wf t.params) = true := by decide
/-- T6.23: the instruction reads itself, the high byte at the lower address. -/
theorem test_loadRegs : ends (step ((launch 0xF165).writeI 0x200))
    (fun t => t.readV 0 == 0xF1 && t.readV 1 == 0x65 && t.readV 2 == 0) = true := by decide
/-- T6.24. -/
theorem test_loadRegs_out : faults (step ((launch 0xF165).writeI 0xFFF)) .outOfBounds = true := by decide

/-! ## Transactions, reset, fetch -/

/-- T8.1, T8.3: the last legal fetch, and the fetch after it. -/
theorem test_fetch_top : ends (step ((State.reset.writePc 0xFFE).placeWord 0x6007))
    (fun t => t.readV 0 == 7 && t.pc == 0x1000 && faults (step t) .outOfBounds) = true := by decide
/-- T7.3. -/
theorem test_tick : (tick ((State.reset.writeDt 255).writeSt 1)).dt = 254 ∧ (tick ((State.reset.writeDt 255).writeSt 1)).st = 0 := by decide
/-- S10. -/
theorem test_overlay_record : overlayRecOfBytes 0x02 0x0C 0xFF 0 0 = { addr := 0x020C, r := 255, g := 0, b := 0 } := by decide
/-- T4.13, T4.14, T4.15. -/
theorem test_drawColour : drawColour Config.params [⟨0, 0, 0, 0⟩, ⟨0, 255, 255, 255⟩, ⟨0x20C, 255, 0, 0⟩, ⟨0x20C, 0, 255, 0⟩] 0x20C = 0xFF0000 ∧
    drawColour Config.params [⟨0, 0, 0, 0⟩, ⟨0, 255, 255, 255⟩, ⟨0x20C, 255, 0, 0⟩] 0x20D = 0xFFFFFF ∧
    drawColour Config.params [⟨0x20C, 9, 9, 9⟩, ⟨0x20C, 1, 2, 3⟩] 0x20C = 0x010203 := by decide
/-- T8.4: glyph 0 at reset, and zeros above the font. -/
theorem test_reset_memory : State.reset.loadBytes 0 5 = [0xF0, 0x90, 0x90, 0x90, 0xF0] ∧ State.reset.readByte 0x4F = 0x80 ∧
    State.reset.readByte 0x50 = 0 := by decide
/-- withFetchWord places the word step runs next, from reset and from a state whose PC is out of memory. -/
theorem test_withFetchWord : ends (step (State.reset.withFetchWord 16 0x6A2F)) (fun t => t.readV 0xA == 0x2F && t.pc == 2) = true ∧
    ends (step ((State.reset.writePc 0xFFF).withFetchWord 16 0x6A2F)) (fun t => t.readV 0xA == 0x2F && t.pc == 0x202) = true := by decide

/-! ## States that meet the hypotheses of the statements, one witness for each clause at a boundary of its range -/

/-- StepRunsTheFetchedInstruction: PC = 4094, PC = 4095. -/
theorem test_meets_StepRunsTheFetchedInstruction :
    (State.reset.writePc 0xFFE).pc.toNat + 1 ≤ 4095 ∧ 4095 < (State.reset.writePc 0xFFF).pc.toNat + 1 := by decide

/-- DecodeOfEncodeIsTheInstruction: an instruction of every kind of operand, and an unrecognised word. -/
theorem test_meets_DecodeOfEncodeIsTheInstruction :
    (Instr.seReg 15 15 0xF).wf = true ∧ (Instr.jpV0 0xFFF).wf = true ∧ (Instr.rnd 0 0xFF).wf = true ∧
      (Instr.unk 0xFFFF).wf = true := by decide

/-- UnrecognisedWordsAreTheListedOnes: a word of each of the four families, and a word of none. -/
theorem test_meets_UnrecognisedWordsAreTheListedOnes :
    decode 0x0FFF = .unk 0x0FFF ∧ decode 0x8FFF = .unk 0x8FFF ∧ decode 0xEFFF = .unk 0xEFFF ∧
      decode 0xFFFF = .unk 0xFFFF ∧ decode 0x9FFF ≠ .unk 0x9FFF := by decide

/-- RetPopsTheTopEntry: SP = 1, SP = 16, SP = 0. -/
theorem test_meets_RetPopsTheTopEntry :
    (0 : RegIdx).val + 1 = ({ State.reset with sp := 1 } : State).sp.val ∧
      (15 : RegIdx).val + 1 = ({ State.reset with sp := 16 } : State).sp.val ∧ State.reset.sp.val = 0 := by decide

/-- HaltChangesNothingAndRepeats, the second clause. -/
theorem test_meets_HaltChangesNothingAndRepeats :
    step (launch 0) = .next ((launch 0).emit .halt false) ∧ ((launch 0).emit .halt false).out.result = .halt := ⟨rfl, rfl⟩

/-- CallPushesTheReturnAddress: SP = 0, SP = 15, SP = 16. -/
theorem test_meets_CallPushesTheReturnAddress :
    (0 : RegIdx).val = State.reset.sp.val ∧ (15 : RegIdx).val = ({ State.reset with sp := 15 } : State).sp.val ∧
      ({ State.reset with sp := 16 } : State).sp.val = 16 := by decide

/-- ReturnUndoesCall: a call, and a state that differs from its next state in a register. -/
theorem test_meets_ReturnUndoesCall :
    ∃ t u : State, exec (.call 0x300) (launch 0) = .next t ∧ u.stack = t.stack ∧ u.sp = t.sp ∧ u ≠ t :=
  ⟨_, State.writeV _ 3 7, rfl, rfl, rfl, by decide⟩

/-- RndMasksItsDraw, the clause on a bit that is 0 in kk. -/
theorem test_meets_RndMasksItsDraw : (0x7F : Byte).getLsbD 7 = false := by decide

/-- AddSetsCarryUnlessVxIsVF, SubtractionsWrapAndFlag, ShiftsReadVyAndWriteTheFlagLast: x = 14 meets x ≠ 15, and x = 15
is the other form. -/
theorem test_meets_alu_x_not_VF : (14 : RegIdx) ≠ 15 ∧ ¬ (15 : RegIdx) ≠ 15 := by decide

/-- FlagWritersLeaveZeroOrOne: one instruction of each kind completes. -/
theorem test_meets_FlagWritersLeaveZeroOrOne :
    (∃ t, exec (.shrReg 15 1) (launch 0) = .next t) ∧ (∃ t, exec (.shlReg 1 15) (launch 0) = .next t) ∧
      (∃ t, exec (.drw 1 2 15) (launch 0) = .next t) ∧
      ((14 : RegIdx) ≠ 15 ∧ (∃ t, exec (.addReg 14 2) (launch 0) = .next t) ∧
        (∃ t, exec (.subReg 14 2) (launch 0) = .next t) ∧ (∃ t, exec (.subnReg 14 2) (launch 0) = .next t)) :=
  ⟨⟨_, rfl⟩, ⟨_, rfl⟩, ⟨_, rfl⟩, by decide, ⟨_, rfl⟩, ⟨_, rfl⟩, ⟨_, rfl⟩⟩

/-- A state with one sprite byte 0x80 in the last byte of memory, I at it. -/
def spriteAtTop : State := (State.reset.writeI 0xFFF).writeByte 0xFFF 0x80

theorem spriteAtTop_covers {c : CellIdx} : spriteAtTop.SpriteCovers 1 2 1 c ↔ c = 0 := by
  rw [State.spriteCovers_iff, show spriteAtTop.drawTargets 1 2 1 = [0] by decide, List.mem_singleton]

/-- DrawTogglesTheCellsItCovers: I + n = 4096; a covered cell that is off, then one that is lit; and height 0, which
covers none, at I = 4096. -/
theorem test_meets_DrawTogglesTheCellsItCovers :
    (spriteAtTop.fb.wf = true ∧ spriteAtTop.i.toNat + (1 : Nibble).toNat = 4096 ∧ spriteAtTop.SpriteCovers 1 2 1 0 ∧
      spriteAtTop.fb.cell 0 = 0) ∧
    ((spriteAtTop.writeFb [(0, 0x00FF00)]).fb.wf = true ∧
      (spriteAtTop.writeFb [(0, 0x00FF00)]).SpriteCovers 1 2 1 0 ∧
      (spriteAtTop.writeFb [(0, 0x00FF00)]).fb.cell 0 ≠ 0) ∧
    ((State.reset.writeI 0x1000).i.toNat + (0 : Nibble).toNat = 4096 ∧
      ∀ c, ¬ (State.reset.writeI 0x1000).SpriteCovers 1 2 0 c) :=
  ⟨⟨by decide, by decide, spriteAtTop_covers.2 rfl, by decide⟩,
   ⟨by decide, spriteAtTop_covers.2 rfl, by decide⟩,
   ⟨by decide, by rintro c ⟨row, col, h, -⟩; exact absurd h (by simp)⟩⟩

/-- DrawColourIsTheFirstMatchingRecord: one record; a match at 2 that record 3 repeats; a match at 3 after a miss at 2;
two records, nothing to scan. -/
theorem test_meets_DrawColourIsTheFirstMatchingRecord :
    ([⟨1, 1, 1, 1⟩] : List OverlayRec).length < 2 ∧
    (∃ (ov : List OverlayRec) (h : 2 < ov.length), (ov[2]).addr = 0x20C ∧ ov[3]?.map OverlayRec.addr = some 0x20C ∧
      ∀ (j : Nat) (hj : j < 2), 2 ≤ j → (ov[j]).addr ≠ 0x20C) ∧
    (∃ (ov : List OverlayRec) (h : 3 < ov.length), (ov[3]).addr = 0x20C ∧
      ∀ (j : Nat) (hj : j < 3), 2 ≤ j → (ov[j]).addr ≠ 0x20C) ∧
    (∃ (ov : List OverlayRec) (_ : 1 < ov.length), ∀ (k : Nat) (hk : k < ov.length), 2 ≤ k → (ov[k]).addr ≠ 0x20C) := by
  refine ⟨by decide,
    ⟨[⟨0, 0, 0, 0⟩, ⟨0, 1, 1, 1⟩, ⟨0x20C, 2, 2, 2⟩, ⟨0x20C, 3, 3, 3⟩], by decide, rfl, rfl, fun j hj h => by omega⟩,
    ⟨[⟨0, 0, 0, 0⟩, ⟨0, 1, 1, 1⟩, ⟨0x20D, 2, 2, 2⟩, ⟨0x20C, 3, 3, 3⟩], by decide, rfl, fun j hj h => ?_⟩,
    ⟨[⟨0x20C, 0, 0, 0⟩, ⟨0x20C, 1, 1, 1⟩], by decide, fun k hk h => by simp at hk; omega⟩⟩
  obtain rfl : j = 2 := by omega
  show (0x20D : Word) ≠ 0x20C
  decide

/-- DrawingTwiceErases: the first draw completes in a lit colour on an all-off framebuffer, and the state the second
draw starts from differs from it in PC. -/
theorem test_meets_DrawingTwiceErases :
    spriteAtTop.fb.wf = true ∧ drawColour spriteAtTop.params spriteAtTop.ov spriteAtTop.i ≠ 0 ∧
    (∀ c, spriteAtTop.fb.cell c = 0) ∧
    ∃ t, exec (.drw 1 2 1) spriteAtTop = .next t ∧ (t.writePc 0x300).i = spriteAtTop.i ∧
      (t.writePc 0x300).readV 1 = spriteAtTop.readV 1 ∧ (t.writePc 0x300).readV 2 = spriteAtTop.readV 2 ∧
      (t.writePc 0x300).params = spriteAtTop.params ∧ (t.writePc 0x300).ov = spriteAtTop.ov ∧
      (t.writePc 0x300).fb.cell 0 ≠ 0 ∧ ∀ a, (t.writePc 0x300).readByte a = spriteAtTop.readByte a :=
  ⟨by decide, by decide, fun _ => rfl, _, rfl, rfl, by decide, by decide, rfl, rfl, by decide, fun _ => rfl⟩

/-- DrawingTwiceErases, the clauses on colours: a covered cell that is lit in another colour than the draw's, and a cell
that is not covered; the first draw completes. -/
theorem test_meets_DrawingTwiceErases_lit :
    (spriteAtTop.writeFb [(0, 0x00FF00), (1, 0x0000FF)]).fb.wf = true ∧
      (spriteAtTop.writeFb [(0, 0x00FF00), (1, 0x0000FF)]).SpriteCovers 1 2 1 0 ∧
      ¬ (spriteAtTop.writeFb [(0, 0x00FF00), (1, 0x0000FF)]).SpriteCovers 1 2 1 1 ∧
      drawColour spriteAtTop.params spriteAtTop.ov spriteAtTop.i ≠ 0x00FF00 ∧
      ∃ t, exec (.drw 1 2 1) (spriteAtTop.writeFb [(0, 0x00FF00), (1, 0x0000FF)]) = .next t ∧ t.fb.cell 0 = 0 :=
  ⟨by decide, spriteAtTop_covers.2 rfl, fun h => absurd (spriteAtTop_covers.1 h) (by decide), by decide, _, rfl, by decide⟩

/-- KeySkipsTestTheSelectedKey: Vx = 0xFF selects key 15. -/
theorem test_meets_KeySkipsTestTheSelectedKey :
    (15 : RegIdx).val = ((withV [(4, 0xFF)] State.reset).readV 4).toNat % 16 := by decide

/-- KeyWaitTakesTheLowestPressedKey: keys 3 and 9 down; key 15 alone; none. -/
theorem test_meets_KeyWaitTakesTheLowestPressedKey :
    (∃ s : State, s.key[(3 : RegIdx)] = true ∧ s.key[(9 : RegIdx)] = true ∧ ∀ j : RegIdx, j < 3 → s.key[j] = false) ∧
    (∃ s : State, s.key[(15 : RegIdx)] = true ∧ ∀ j : RegIdx, j < 15 → s.key[j] = false) ∧
    (∀ k : RegIdx, State.reset.key[k] = false) :=
  ⟨⟨{ State.reset with key := (State.reset.key.set 3 true).set 9 true }, by decide, by decide, by decide⟩,
   ⟨{ State.reset with key := State.reset.key.set 15 true }, by decide, by decide⟩, by decide⟩

/-- KeyWaitHoldsUntilAKeyIsPressed. -/
theorem test_meets_KeyWaitHoldsUntilAKeyIsPressed :
    (launch 0xF50A).fetch = some 0xF50A ∧ decode 0xF50A = .ldVxK 5 ∧ (∀ k : RegIdx, (launch 0xF50A).key[k] = false) ∧
      ∀ tx ∈ [Transaction.step, Transaction.tick, Transaction.step], tx = .step ∨ tx = .tick := by decide

/-- BcdStoresThreeDigits: I = 4093, I = 4094. -/
theorem test_meets_BcdStoresThreeDigits :
    State.reset.mem.wf State.reset.params = true ∧ (State.reset.writeI 0xFFD).i.toNat + 2 = 4095 ∧
      (State.reset.writeI 0xFFE).i.toNat + 2 = 4096 := by decide

/-- StoreWritesTheRegisterBlock, LoadReadsTheRegisterBlock: I + x = 4095, I + x = 4096. -/
theorem test_meets_StoreWritesTheRegisterBlock :
    State.reset.mem.wf State.reset.params = true ∧ (State.reset.writeI 0xFF0).i.toNat + (15 : RegIdx).val = 4095 ∧
      (State.reset.writeI 0xFFF).i.toNat + (1 : RegIdx).val = 4096 := by decide

/-- StoreThenLoadRestoresRegisters: a block store, and a state with its memory and I and other registers. -/
theorem test_meets_StoreThenLoadRestoresRegisters :
    ∃ t u : State, exec (.storeRegs 2) (withV [(0, 0xAA)] (launch 0)) = .next t ∧ (∀ a, u.readByte a = t.readByte a) ∧
      u.i = (withV [(0, 0xAA)] (launch 0)).i ∧ u.readV 0 ≠ t.readV 0 :=
  ⟨_, State.writeV _ 0 0, rfl, fun _ => rfl, rfl, by decide⟩

/-- StoredBytesAreFetchedNext: a store of V0, V1 over the bytes after the instruction (program P5). -/
theorem test_meets_StoredBytesAreFetchedNext :
    ((launch 0xF155).writeI 0x202).mem.wf ((launch 0xF155).writeI 0x202).params = true ∧
    ∃ t, exec (.storeRegs 1) ((launch 0xF155).writeI 0x202) = .next t ∧ (1 : RegIdx).val = (0 : RegIdx).val + 1 ∧
      t.pc.toNat = ((launch 0xF155).writeI 0x202).i.toNat + (0 : RegIdx).val :=
  ⟨by decide, _, rfl, rfl, by decide⟩

/-- InstructionsStopExactlyWhenListed: each listed condition holds somewhere, at its boundary. -/
theorem test_meets_InstructionsStopExactlyWhenListed :
    State.reset.sp.val = 0 ∧ ({ State.reset with sp := 16 } : State).sp.val = 16 ∧
      4096 < (State.reset.writeI 0x1000).i.toNat + (1 : Nibble).toNat ∧ 4096 ≤ (State.reset.writeI 0xFFE).i.toNat + 2 ∧
      4096 ≤ (State.reset.writeI 0xFFF).i.toNat + (1 : RegIdx).val := by decide

/-- FaultingStepLeavesNoTrace, FaultRepeatsWhateverTheHostPolls: a faulting step of each kind, and polls. -/
theorem test_meets_FaultRepeatsWhateverTheHostPolls :
    step (State.reset.writePc 0xFFF) = .fault .outOfBounds ∧ step (launch 0x00EE) = .fault .stackFault ∧
      ∀ tx ∈ [Transaction.step, .tick, .setKeys (Vector.replicate 16 true), .fbRead 7],
        tx = .step ∨ tx = .tick ∨ (∃ k, tx = .setKeys k) ∨ (∃ c, tx = .fbRead c) :=
  ⟨rfl, rfl, by simp⟩

/-- OnlyListedInstructionsWrite, DirtyReportsEveryFramebufferChange: canonical forms, a completing instruction, and
something it changes. -/
theorem test_meets_OnlyListedInstructionsWrite :
    (launch 0).mem.wf (launch 0).params = true ∧ (launch 0).fb.wf = true ∧
      (∃ t, exec (.call 0x300) (launch 0) = .next t ∧ t.sp ≠ (launch 0).sp ∧ t.stack[(0 : RegIdx)] ≠ (launch 0).stack[(0 : RegIdx)]) ∧
      (∃ t, exec (.ldI 0x300) (launch 0) = .next t ∧ t.i ≠ (launch 0).i) ∧
      (∃ t, exec (.storeRegs 0) (launch 0) = .next t ∧ t.readByte 0 ≠ (launch 0).readByte 0) ∧
      (∃ t, exec (.rnd 0 0) (launch 0) = .next t ∧ t.draws ≠ (launch 0).draws) :=
  ⟨by decide, by decide, ⟨_, rfl, by decide, by decide⟩, ⟨_, rfl, by decide⟩, ⟨_, rfl, by decide⟩, ⟨_, rfl, by decide⟩⟩

/-- OnlyListedInstructionsWrite, the clauses on the timers and the framebuffer. -/
theorem test_meets_OnlyListedInstructionsWrite_rest :
    (∃ t, exec (.ldDt 1) (withV [(1, 5)] (launch 0)) = .next t ∧ t.dt ≠ (launch 0).dt) ∧
      (∃ t, exec (.ldSt 1) (withV [(1, 5)] (launch 0)) = .next t ∧ t.st ≠ (launch 0).st) ∧
      (∃ t, exec .cls (spriteAtTop.writeFb [(0, 0x00FF00)]) = .next t ∧ t.fb.cell 0 ≠ 0x00FF00 ∧ t.out.dirty = true) ∧
      (∃ t, exec .halt spriteAtTop = .next t ∧ t.out.dirty = false) :=
  ⟨⟨_, rfl, by decide⟩, ⟨_, rfl, by decide⟩, ⟨_, rfl, by decide, rfl⟩, ⟨_, rfl, rfl⟩⟩

/-- OnlyListedInstructionsWrite, the clauses on the registers and PC: a register named by x, one of a loaded block, VF as
a flag of an instruction whose x is another, and PC. -/
theorem test_meets_OnlyListedInstructionsWrite_registers :
    (∃ t, exec (.ldImm 14 7) (launch 0) = .next t ∧ t.readV 14 ≠ (launch 0).readV 14 ∧ t.pc ≠ (launch 0).pc) ∧
      (∃ t, exec (.loadRegs 15) (launch 0) = .next t ∧ t.readV 15 ≠ (launch 0).readV 15) ∧
      (∃ t, exec (.subnReg 1 2) (launch 0) = .next t ∧ t.readV 15 ≠ (launch 0).readV 15) ∧
      (∃ t, exec (.drw 1 2 0) (withV [(15, 9)] (launch 0)) = .next t ∧
        t.readV 15 ≠ (withV [(15, 9)] (launch 0)).readV 15) :=
  ⟨⟨_, rfl, by decide, by decide⟩, ⟨_, rfl, by decide⟩, ⟨_, rfl, by decide⟩, ⟨_, rfl, by decide⟩⟩

/-- OnlyListedInstructionsRead: 00E0 is none of the readers; 8xy4 neither. -/
theorem test_meets_OnlyListedInstructionsRead :
    (∀ x, Instr.cls ≠ .skp x ∧ Instr.cls ≠ .sknp x ∧ Instr.cls ≠ .ldVxK x) ∧
      (∀ x, Instr.addReg 1 2 ≠ .ldVxDt x ∧ Instr.addReg 1 2 ≠ .ldDt x) ∧ (∀ x, Instr.ldDt 3 ≠ .ldSt x) ∧
      (∀ x y n, Instr.ldSt 3 ≠ .drw x y n) := by simp

/-- PcMovesOnlyAsListed: an instruction that leaves PC, one that skips, one that jumps. -/
theorem test_meets_PcMovesOnlyAsListed :
    (∃ t, exec .halt (launch 0) = .next t) ∧ (∃ t, exec (.seImm 0 0) (launch 0) = .next t ∧ t.pc = 0x204) ∧
      (∃ t, exec (.jpV0 0xFFF) (launch 0) = .next t) ∧
      (∃ t, exec .ret { launch 0 with sp := 16 } = .next t ∧ (15 : RegIdx).val + 1 = ({ launch 0 with sp := 16 } : State).sp.val) :=
  ⟨⟨_, rfl⟩, ⟨_, rfl, by decide⟩, ⟨_, rfl⟩, ⟨_, rfl, rfl⟩⟩

/-- StepKeepsTheInvariants: a call from the launch state. -/
theorem test_meets_StepKeepsTheInvariants : (launch 0x2300).Inv ∧ ∃ t, step (launch 0x2300) = .next t ∧ t.sp = 1 :=
  ⟨⟨by decide, by decide, by decide, by decide, by decide, by decide⟩, _, rfl, rfl⟩

/-- ResetMeetsTheInvariants: a parameter R4 allows that is not the default. -/
theorem test_meets_ResetMeetsTheInvariants : ({ font := Vector.replicate 80 0, defaultFg := 1 } : Config.Params).defaultFg ≠ 0 := by decide

/-- ReachableStatesMeetTheInvariants: a state reached through a load of one word, a key poll and a step. -/
theorem test_meets_ReachableStatesMeetTheInvariants :
    Reachable (tick (setKeys (Vector.replicate 16 true) (loadProgram [0x12, 0x00] none State.reset))) :=
  .transact .tick
    (.transact (.setKeys _) (.transact (.load [0x12, 0x00] none) (.reset Config.params (by decide)) rfl) rfl) rfl

/-- LoadPlacesTheProgramOrChangesNothing: lengths 0xE01 and 0xE00, and a state that is loaded. -/
theorem test_meets_LoadPlacesTheProgramOrChangesNothing :
    State.reset.mem.wf State.reset.params = true ∧ State.reset.loaded = false ∧
      0xE00 < (List.replicate 0xE01 (0 : Byte)).length ∧ (List.replicate 0xE00 (0 : Byte)).length ≤ 0xE00 ∧
      2 ≤ ([⟨0, 0, 0, 0⟩, ⟨0, 1, 1, 1⟩] : List OverlayRec).length ∧ ([⟨0, 0, 0, 0⟩] : List OverlayRec).length < 2 ∧
      (loadProgram [] none State.reset).loaded = true :=
  ⟨rfl, rfl, by rw [List.length_replicate]; decide, by rw [List.length_replicate], by decide, by decide, rfl⟩

/-- LaunchStateAfterResetAndLoad: the longest program. -/
theorem test_meets_LaunchStateAfterResetAndLoad : (List.replicate 0xE00 (0x6F : Byte)).length ≤ 0xE00 := by
  rw [List.length_replicate]

/-- RunsEndOnlyInHalt: a jump to the zeros above it, and then HALT. -/
theorem test_meets_RunsEndOnlyInHalt : ∃ t, runsToHalt 2 (launch 0x1300) = some t ∧ t.pc = 0x300 := ⟨_, rfl, rfl⟩

/-- The keys that are down, and no other. -/
def keysDown (ks : List RegIdx) : Vector Bool 16 := Vector.ofFn (fun k => decide (k ∈ ks))

/-- Program P4: a key wait, DT from the key, and HALT. -/
def programP4 : State := loadProgram [0xF0, 0x0A, 0xF0, 0x15, 0xF1, 0x07, 0x00, 0x00] none State.reset

/-- The transactions of program P4, in the spec's order; the ninth is the step that halts. -/
def hostP4 : List Transaction :=
  [.step, .step, .setKeys (keysDown [7, 9]), .step, .step, .tick, .tick, .step, .step]

/-- Program P4: the run of a host that polls a key and ticks between its steps ends at the first Halt, with V1 = 5 and
PC = 0x206, and what the host issues after it is no part of it. -/
theorem test_run_P4 :
    (match runHost (hostP4 ++ [.tick, .step]) programP4 with
      | .ended t => t.readV 1 == 5 && t.pc == 0x206 && t.dt == 5 && t.out.result == .halt
      | _ => false) = true := by decide +kernel

/-- Program P8 under a host that ticks: the run faults. -/
theorem test_run_P8 :
    runHost [.step, .tick, .step, .step, .step] (loadProgram [0xAF, 0xFE, 0x60, 0x7B, 0xF0, 0x33, 0x00, 0x00] none State.reset) =
      .faulted .outOfBounds := by decide +kernel

/-- RunEndsAtTheFirstStepThatIsNotContinue: a run that ends after ticks and a key poll, one that faults, one that has
not ended. -/
theorem test_meets_RunEndsAtTheFirstStepThatIsNotContinue :
    (∃ t, runHost [.tick, .step, .setKeys (keysDown [3]), .step] (launch 0x1300) = .ended t) ∧
      runHost [.tick, .step] (launch 0x00EE) = .faulted .stackFault ∧
      (∃ u, runHost [.step, .tick, .step] (launch 0x1200) = .running u) := ⟨⟨_, rfl⟩, rfl, ⟨_, rfl⟩⟩

/-- TransactionsKeepTheInvariants: every transaction completes from a state that meets them. -/
theorem test_meets_TransactionsKeepTheInvariants :
    (launch 0x2300).Inv ∧ (∃ p, transact .step (launch 0x2300) = .next p) ∧ (∃ p, transact .tick (launch 0x2300) = .next p) ∧
      (∃ p, transact (.setKeys (keysDown [1])) (launch 0x2300) = .next p) ∧
      (∃ p, transact (.fbRead 2047) (launch 0x2300) = .next p) ∧
      (∃ t, transact (.load [0x12, 0x00] (some [⟨0, 0, 0, 0⟩])) (launch 0x2300) = .next (t, .loadOk) ∧ t.ov = []) :=
  ⟨⟨by decide, by decide, by decide, by decide, by decide, by decide⟩, ⟨_, rfl⟩, ⟨_, rfl⟩, ⟨_, rfl⟩, ⟨_, rfl⟩, ⟨_, rfl, rfl⟩⟩

end Sys2Proof.Tests
end

section
/-! The exec equations: for each instruction, the one next state it can answer (spec/40 to spec/46), with the condition
under which it answers it. Every later proof takes an execution apart with these and unfolds no meaning again. -/

namespace Sys2Proof.Machine

variable {s t : State}

/-! ## A push or a pop that succeeds -/

theorem State.eq_of_push {w : Word} (h : s.push w = some t) :
    ∃ h16 : s.sp.val < 16,
      t = { s with stack := s.stack.set s.sp.val w, sp := ⟨s.sp.val + 1, Nat.succ_lt_succ h16⟩ } := by
  rcases s.push_cases w with ⟨h16, e⟩ | ⟨-, e⟩ <;> rw [e] at h <;> cases h
  exact ⟨h16, rfl⟩

theorem State.eq_of_pop {w : Word} (h : s.pop = some (w, t)) :
    ∃ (k : RegIdx) (j : Fin 17), k.val + 1 = s.sp.val ∧ j.val + 1 = s.sp.val ∧ w = s.stack[k] ∧
      t = { s with sp := j } := by
  rcases s.pop_cases with ⟨k, j, hk, hj, e⟩ | ⟨-, e⟩ <;> rw [e] at h <;> cases h
  exact ⟨k, j, hk, hj, rfl, rfl⟩

/-! ## Family 0 and the unrecognised words -/

@[simp] theorem exec_cls_eq_next :
    exec .cls s = .next t ↔ t = ((s.writeFb Framebuffer.blank).advance 2).emit .cont true :=
  complete_eq_next

@[simp] theorem exec_ret_eq_next :
    exec .ret s = .next t ↔ ∃ w u, s.pop = some (w, u) ∧ t = (u.writePc w).emit .cont false := by
  simp only [exec, execRet]
  rcases s.pop with _ | ⟨w, u⟩ <;> simp

@[simp] theorem exec_halt_eq_next : exec .halt s = .next t ↔ t = s.emit .halt false := by
  simp [exec, execHalt, eq_comm]

@[simp] theorem exec_unk_eq_next {w : Word} : exec (.unk w) s = .next t ↔ t = (s.advance 2).emit .cont false :=
  completeNext_eq_next

/-! ## Jumps, calls, skips -/

@[simp] theorem exec_jp_eq_next {nnn : Addr12} :
    exec (.jp nnn) s = .next t ↔ t = (s.writePc (extendAddr nnn)).emit .cont false :=
  complete_eq_next

@[simp] theorem exec_jpV0_eq_next {nnn : Addr12} :
    exec (.jpV0 nnn) s = .next t ↔ t = (s.writePc (indexedTarget (s.readV 0) nnn)).emit .cont false :=
  complete_eq_next

@[simp] theorem exec_call_eq_next {nnn : Addr12} :
    exec (.call nnn) s = .next t ↔
      ∃ u, s.push (s.pc + 2) = some u ∧ t = (u.writePc (extendAddr nnn)).emit .cont false := by
  simp only [exec, execCall]
  cases s.push (s.pc + 2) <;> simp

@[simp] theorem exec_seImm_eq_next {x : RegIdx} {kk : Byte} :
    exec (.seImm x kk) s = .next t ↔ t = (s.advance (if s.readV x == kk then 4 else 2)).emit .cont false :=
  completeSkip_eq_next

@[simp] theorem exec_sneImm_eq_next {x : RegIdx} {kk : Byte} :
    exec (.sneImm x kk) s = .next t ↔ t = (s.advance (if s.readV x != kk then 4 else 2)).emit .cont false :=
  completeSkip_eq_next

@[simp] theorem exec_seReg_eq_next {x y : RegIdx} {n : Nibble} :
    exec (.seReg x y n) s = .next t ↔ t = (s.advance (if s.readV x == s.readV y then 4 else 2)).emit .cont false :=
  completeSkip_eq_next

@[simp] theorem exec_sneReg_eq_next {x y : RegIdx} {n : Nibble} :
    exec (.sneReg x y n) s = .next t ↔ t = (s.advance (if s.readV x != s.readV y then 4 else 2)).emit .cont false :=
  completeSkip_eq_next

@[simp] theorem exec_skp_eq_next {x : RegIdx} :
    exec (.skp x) s = .next t ↔ t = (s.advance (if s.keyDown (s.readV x) then 4 else 2)).emit .cont false :=
  completeSkip_eq_next

@[simp] theorem exec_sknp_eq_next {x : RegIdx} :
    exec (.sknp x) s = .next t ↔ t = (s.advance (if !s.keyDown (s.readV x) then 4 else 2)).emit .cont false :=
  completeSkip_eq_next

/-! ## Writers of one register -/

@[simp] theorem exec_ldImm_eq_next {x : RegIdx} {kk : Byte} :
    exec (.ldImm x kk) s = .next t ↔ t = ((s.writeV x kk).advance 2).emit .cont false :=
  completeNext_eq_next

@[simp] theorem exec_addImm_eq_next {x : RegIdx} {kk : Byte} :
    exec (.addImm x kk) s = .next t ↔ t = ((s.writeV x (s.readV x + kk)).advance 2).emit .cont false :=
  completeNext_eq_next

@[simp] theorem exec_ldReg_eq_next {x y : RegIdx} :
    exec (.ldReg x y) s = .next t ↔ t = ((s.writeV x (s.readV y)).advance 2).emit .cont false :=
  completeNext_eq_next

@[simp] theorem exec_orReg_eq_next {x y : RegIdx} :
    exec (.orReg x y) s = .next t ↔ t = ((s.writeV x (s.readV x ||| s.readV y)).advance 2).emit .cont false :=
  completeNext_eq_next

@[simp] theorem exec_andReg_eq_next {x y : RegIdx} :
    exec (.andReg x y) s = .next t ↔ t = ((s.writeV x (s.readV x &&& s.readV y)).advance 2).emit .cont false :=
  completeNext_eq_next

@[simp] theorem exec_xorReg_eq_next {x y : RegIdx} :
    exec (.xorReg x y) s = .next t ↔ t = ((s.writeV x (s.readV x ^^^ s.readV y)).advance 2).emit .cont false :=
  completeNext_eq_next

@[simp] theorem exec_rnd_eq_next {x : RegIdx} {kk : Byte} :
    exec (.rnd x kk) s = .next t ↔ t = ((s.drawByte.2.writeV x (s.drawByte.1 &&& kk)).advance 2).emit .cont false :=
  completeNext_eq_next

@[simp] theorem exec_ldVxDt_eq_next {x : RegIdx} :
    exec (.ldVxDt x) s = .next t ↔ t = ((s.writeV x s.dt).advance 2).emit .cont false :=
  completeNext_eq_next

/-- With no key down the key wait writes nothing but its outputs, and PC stays (R162). -/
@[simp] theorem exec_ldVxK_eq_next {x : RegIdx} :
    exec (.ldVxK x) s = .next t ↔
      (∃ k, s.firstKey = some k ∧ t = ((s.writeV x (BitVec.ofNat 8 k.val)).advance 2).emit .cont false) ∨
        (s.firstKey = none ∧ t = s.emit .cont false) := by
  cases hk : s.firstKey <;> simp [exec, execLdVxK, hk]

/-! ## Writers of a register and the flag -/

@[simp] theorem flagThenResult_eq_next {x : RegIdx} {b : Byte} {f : Bool} :
    flagThenResult x b f s = .next t ↔ t = (((s.setFlag f).writeV x b).advance 2).emit .cont false :=
  completeNext_eq_next

@[simp] theorem resultThenFlag_eq_next {x : RegIdx} {b : Byte} {f : Bool} :
    resultThenFlag x b f s = .next t ↔ t = (((s.writeV x b).setFlag f).advance 2).emit .cont false :=
  completeNext_eq_next

@[simp] theorem exec_addReg_eq_next {x y : RegIdx} :
    exec (.addReg x y) s = .next t ↔
      t = (((s.setFlag (flagCarry (s.readV x) (s.readV y))).writeV x (s.readV x + s.readV y)).advance 2).emit
        .cont false :=
  flagThenResult_eq_next

@[simp] theorem exec_subReg_eq_next {x y : RegIdx} :
    exec (.subReg x y) s = .next t ↔
      t = (((s.setFlag (flagGreater (s.readV x) (s.readV y))).writeV x (s.readV x - s.readV y)).advance 2).emit
        .cont false :=
  flagThenResult_eq_next

@[simp] theorem exec_subnReg_eq_next {x y : RegIdx} :
    exec (.subnReg x y) s = .next t ↔
      t = (((s.setFlag (flagNotGreater (s.readV x) (s.readV y))).writeV x (s.readV y - s.readV x)).advance 2).emit
        .cont false :=
  flagThenResult_eq_next

@[simp] theorem exec_shrReg_eq_next {x y : RegIdx} :
    exec (.shrReg x y) s = .next t ↔
      t = (((s.writeV x (s.readV y >>> 1)).setFlag (flagShr (s.readV y))).advance 2).emit .cont false :=
  resultThenFlag_eq_next

@[simp] theorem exec_shlReg_eq_next {x y : RegIdx} :
    exec (.shlReg x y) s = .next t ↔
      t = (((s.writeV x (s.readV y <<< 1)).setFlag (flagShl (s.readV y))).advance 2).emit .cont false :=
  resultThenFlag_eq_next

@[simp] theorem exec_drw_eq_next {x y : RegIdx} {n : Nibble} :
    exec (.drw x y n) s = .next t ↔ s.i.toNat + n.toNat ≤ 4096 ∧
      t = (((s.writeFb (s.drawOutcome x y n).1).setFlag (s.drawOutcome x y n).2).advance 2).emit .cont
        (!(s.drawTargets x y n).isEmpty) := by
  simp only [exec, execDrw, ← inMemory_iff]; split <;> simp_all

/-! ## Index register, timers, blocks -/

@[simp] theorem exec_ldI_eq_next {nnn : Addr12} :
    exec (.ldI nnn) s = .next t ↔ t = ((s.writeI (extendAddr nnn)).advance 2).emit .cont false :=
  completeNext_eq_next

@[simp] theorem exec_addI_eq_next {x : RegIdx} :
    exec (.addI x) s = .next t ↔ t = ((s.writeI (s.i + extendByte (s.readV x))).advance 2).emit .cont false :=
  completeNext_eq_next

@[simp] theorem exec_ldF_eq_next {x : RegIdx} :
    exec (.ldF x) s = .next t ↔ t = ((s.writeI (glyphAddr (s.readV x))).advance 2).emit .cont false :=
  completeNext_eq_next

@[simp] theorem exec_ldDt_eq_next {x : RegIdx} :
    exec (.ldDt x) s = .next t ↔ t = ((s.writeDt (s.readV x)).advance 2).emit .cont false :=
  completeNext_eq_next

@[simp] theorem exec_ldSt_eq_next {x : RegIdx} :
    exec (.ldSt x) s = .next t ↔ t = ((s.writeSt (s.readV x)).advance 2).emit .cont false :=
  completeNext_eq_next

@[simp] theorem exec_ldB_eq_next {x : RegIdx} :
    exec (.ldB x) s = .next t ↔ s.i.toNat + 3 ≤ 4096 ∧
      t = ((s.storeBytes s.i.toNat (bcdDigits (s.readV x))).advance 2).emit .cont false := by
  simp only [exec, execLdB, ← inMemory_iff]; split <;> simp_all

@[simp] theorem exec_storeRegs_eq_next {x : RegIdx} :
    exec (.storeRegs x) s = .next t ↔ s.i.toNat + (x.val + 1) ≤ 4096 ∧
      t = ((s.storeBytes s.i.toNat (s.regBlock x)).advance 2).emit .cont false := by
  simp only [exec, execStoreRegs, ← inMemory_iff]; split <;> simp_all

@[simp] theorem exec_loadRegs_eq_next {x : RegIdx} :
    exec (.loadRegs x) s = .next t ↔ s.i.toNat + (x.val + 1) ≤ 4096 ∧
      t = ((s.writeRegs 0 (s.loadBytes s.i.toNat (x.val + 1))).advance 2).emit .cont false := by
  simp only [exec, execLoadRegs, ← inMemory_iff]; split <;> simp_all

end Sys2Proof.Machine
end

section
/-! Frames: one rule per update of State, chained along the updates an instruction makes; and from them the written-by
column of R35, a table with a row per location. -/

namespace Sys2Proof.Machine

/-! ## One rule per update -/

section rules
variable {W : Loc → Prop} {s u v : State}

/-- A change to one location that may be written. -/
theorem Frame.change (h : Frame W s u) {l₀ : Loc} (hw : W l₀) (hv : ∀ l, l ≠ l₀ → l.same u v) : Frame W s v :=
  h.trans fun l hl => hv l fun e => hl (e ▸ hw)

theorem Frame.writeV (h : Frame W s u) {x : RegIdx} (hw : W (.v x)) (b : Byte) : Frame W s (u.writeV x b) :=
  h.change hw fun l hl => by
    cases l with
    | v r => exact State.writeV_readV_ne u b fun e => hl (e ▸ rfl)
    | _ => rfl

theorem Frame.setFlag (h : Frame W s u) (hw : W (.v 15)) (f : Bool) : Frame W s (u.setFlag f) :=
  h.writeV hw _

theorem Frame.writeI (h : Frame W s u) (hw : W .i) (w : Word) : Frame W s (u.writeI w) :=
  h.change hw fun l hl => by cases l with | i => contradiction | _ => rfl

theorem Frame.writePc (h : Frame W s u) (hw : W .pc) (w : Word) : Frame W s (u.writePc w) :=
  h.change hw fun l hl => by cases l with | pc => contradiction | _ => rfl

theorem Frame.writeDt (h : Frame W s u) (hw : W .dt) (b : Byte) : Frame W s (u.writeDt b) :=
  h.change hw fun l hl => by cases l with | dt => contradiction | _ => rfl

theorem Frame.writeSt (h : Frame W s u) (hw : W .st) (b : Byte) : Frame W s (u.writeSt b) :=
  h.change hw fun l hl => by cases l with | st => contradiction | _ => rfl

theorem Frame.drawByte (h : Frame W s u) (hw : W .draws) : Frame W s u.drawByte.2 :=
  h.change hw fun l hl => by cases l with | draws => contradiction | _ => rfl

theorem Frame.emit (h : Frame W s u) (hw : W .out) (r : StepResult) (d : Bool) : Frame W s (u.emit r d) :=
  h.change hw fun l hl => by cases l with | out => contradiction | _ => rfl

/-- The end of an instruction that falls through to the next one, or skips it. -/
theorem Frame.advance_emit (h : Frame W s u) (hpc : W .pc) (hout : W .out) (k : Word) (d : Bool) :
    Frame W s ((u.advance k).emit .cont d) :=
  (h.writePc hpc _).emit hout .cont d

theorem Frame.writeFb (h : Frame W s u) (hw : ∀ c, W (.fb c)) (fb : Framebuffer) : Frame W s (u.writeFb fb) := by
  refine h.trans fun l hl => ?_
  cases l with
  | fb c => exact absurd (hw c) hl
  | _ => rfl

theorem Frame.writeByte (h : Frame W s u) (hw : ∀ a, W (.mem a)) (a : Nat) (b : Byte) :
    Frame W s (u.writeByte a b) := by
  refine h.trans fun l hl => ?_
  cases l with
  | mem q => exact absurd (hw q) hl
  | _ => rfl

theorem Frame.storeBytes (h : Frame W s u) (hw : ∀ a, W (.mem a)) (a : Nat) (bs : List Byte) :
    Frame W s (u.storeBytes a bs) := by
  induction bs generalizing u a with
  | nil => exact h
  | cons b bs ih => exact ih (h.writeByte hw a b) (a + 1)

/-- A block of registers written from `V[0]` on. -/
theorem Frame.writeRegs (h : Frame W s u) (bs : List Byte) (hw : ∀ r : RegIdx, r.val < bs.length → W (.v r)) :
    Frame W s (u.writeRegs 0 bs) := by
  refine h.trans fun l hl => ?_
  cases l with
  | v r =>
    have hr : ¬ r.val < bs.length := fun hr => hl (hw r hr)
    show (u.writeRegs 0 bs).readV r = u.readV r
    rw [State.writeRegs_readV, dif_neg (by omega)]
  | _ => simp [Loc.same]

theorem Frame.push (h : Frame W s u) {w : Word} (hp : u.push w = some v)
    (hst : ∀ k : RegIdx, k.val = u.sp.val → W (.stack k)) (hsp : W .sp) : Frame W s v := by
  obtain ⟨h16, rfl⟩ := State.eq_of_push hp
  refine h.trans fun l hl => ?_
  cases l with
  | sp => exact absurd hsp hl
  | stack k =>
    have hk : u.sp.val ≠ k.val := fun e => hl (hst k e.symm)
    exact Vector.getElem_set_ne h16 _ hk
  | _ => rfl

/-- A pop leaves the vacated slot as it is (R101). -/
theorem Frame.pop (h : Frame W s u) {w : Word} (hp : u.pop = some (w, v)) (hsp : W .sp) : Frame W s v := by
  obtain ⟨k, j, -, -, -, rfl⟩ := State.eq_of_pop hp
  exact h.change hsp fun l hl => by cases l with | sp => contradiction | _ => rfl

end rules

/-! ## The written-by column of R35 -/

/-- The instructions R35 lists as writers of a location, row by row; and those that write the model's own fields. -/
def mayWrite (i : Instr) : Loc → Prop
  | .v r =>
    (∃ kk, i = .ldImm r kk ∨ i = .addImm r kk ∨ i = .rnd r kk) ∨
      (∃ y, i = .ldReg r y ∨ i = .orReg r y ∨ i = .andReg r y ∨ i = .xorReg r y ∨ i = .addReg r y ∨ i = .subReg r y ∨
        i = .shrReg r y ∨ i = .subnReg r y ∨ i = .shlReg r y) ∨
      i = .ldVxDt r ∨ i = .ldVxK r ∨ (∃ x, r ≤ x ∧ i = .loadRegs x) ∨
      (r = 15 ∧ ((∃ x y, i = .addReg x y ∨ i = .subReg x y ∨ i = .shrReg x y ∨ i = .subnReg x y ∨ i = .shlReg x y) ∨
        ∃ x y n, i = .drw x y n))
  | .i => (∃ nnn, i = .ldI nnn) ∨ (∃ x, i = .addI x) ∨ (∃ x, i = .ldF x)
  | .pc => i ≠ .halt
  | .sp => i = .ret ∨ ∃ nnn, i = .call nnn
  | .stack _ => ∃ nnn, i = .call nnn
  | .dt => ∃ x, i = .ldDt x
  | .st => ∃ x, i = .ldSt x
  | .fb _ => i = .cls ∨ ∃ x y n, i = .drw x y n
  | .mem _ => (∃ x, i = .ldB x) ∨ (∃ x, i = .storeRegs x)
  | .draws => ∃ x kk, i = .rnd x kk
  | .out => True
  | .key _ | .ov | .params | .loaded => False

/-- Every instruction leaves alone what R35 does not list it for. -/
theorem exec_frame {i : Instr} {s t : State} (h : exec i s = .next t) : Frame (mayWrite i) s t := by
  have hs : Frame (mayWrite i) s s := Frame.refl _ s
  have hpc : i ≠ .halt → mayWrite i .pc := id
  have hout : mayWrite i .out := trivial
  cases i
  case halt => obtain rfl := exec_halt_eq_next.1 h; exact hs.emit hout _ _
  case jp | jpV0 =>
    simp only [exec_jp_eq_next, exec_jpV0_eq_next] at h
    subst h
    exact (hs.writePc (hpc nofun) _).emit hout _ _
  case call nnn =>
    obtain ⟨u, hu, rfl⟩ := exec_call_eq_next.1 h
    exact ((hs.push hu (fun _ _ => ⟨nnn, rfl⟩) (.inr ⟨nnn, rfl⟩)).writePc (hpc nofun) _).emit hout _ _
  case ret =>
    obtain ⟨w, u, hu, rfl⟩ := exec_ret_eq_next.1 h
    exact ((hs.pop hu (.inl rfl)).writePc (hpc nofun) _).emit hout _ _
  case unk | seImm | sneImm | seReg | sneReg | skp | sknp =>
    simp only [exec_unk_eq_next, exec_seImm_eq_next, exec_sneImm_eq_next, exec_seReg_eq_next,
      exec_sneReg_eq_next, exec_skp_eq_next, exec_sknp_eq_next] at h
    subst h
    exact hs.advance_emit (hpc nofun) hout _ _
  case ldImm | addImm | ldReg | orReg | andReg | xorReg | ldVxDt =>
    simp only [exec_ldImm_eq_next, exec_addImm_eq_next, exec_ldReg_eq_next, exec_orReg_eq_next,
      exec_andReg_eq_next, exec_xorReg_eq_next, exec_ldVxDt_eq_next] at h
    subst h
    exact (hs.writeV (by simp [mayWrite]) _).advance_emit (hpc nofun) hout _ _
  case rnd x kk =>
    obtain rfl := exec_rnd_eq_next.1 h
    exact ((hs.drawByte ⟨x, kk, rfl⟩).writeV (by simp [mayWrite]) _).advance_emit (hpc nofun) hout _ _
  case ldVxK x =>
    obtain ⟨k, -, rfl⟩ | ⟨-, rfl⟩ := exec_ldVxK_eq_next.1 h
    · exact (hs.writeV (by simp [mayWrite]) _).advance_emit (hpc nofun) hout _ _
    · exact hs.emit hout _ _
  case addReg | subReg | subnReg =>
    simp only [exec_addReg_eq_next, exec_subReg_eq_next, exec_subnReg_eq_next] at h
    subst h
    exact ((hs.setFlag (by simp [mayWrite]) _).writeV (by simp [mayWrite]) _).advance_emit (hpc nofun) hout _ _
  case shrReg | shlReg =>
    simp only [exec_shrReg_eq_next, exec_shlReg_eq_next] at h
    subst h
    exact ((hs.writeV (by simp [mayWrite]) _).setFlag (by simp [mayWrite]) _).advance_emit (hpc nofun) hout _ _
  case cls =>
    obtain rfl := exec_cls_eq_next.1 h
    exact (hs.writeFb (fun _ => .inl rfl) _).advance_emit (hpc nofun) hout _ _
  case drw x y n =>
    obtain ⟨-, rfl⟩ := exec_drw_eq_next.1 h
    exact ((hs.writeFb (fun _ => .inr ⟨x, y, n, rfl⟩) _).setFlag (by simp [mayWrite]) _).advance_emit (hpc nofun)
      hout _ _
  case ldI | addI | ldF =>
    simp only [exec_ldI_eq_next, exec_addI_eq_next, exec_ldF_eq_next] at h
    subst h
    exact (hs.writeI (by simp [mayWrite]) _).advance_emit (hpc nofun) hout _ _
  case ldDt x => obtain rfl := exec_ldDt_eq_next.1 h; exact (hs.writeDt ⟨x, rfl⟩ _).advance_emit (hpc nofun) hout _ _
  case ldSt x => obtain rfl := exec_ldSt_eq_next.1 h; exact (hs.writeSt ⟨x, rfl⟩ _).advance_emit (hpc nofun) hout _ _
  case ldB | storeRegs =>
    simp only [exec_ldB_eq_next, exec_storeRegs_eq_next] at h
    obtain ⟨-, rfl⟩ := h
    exact (hs.storeBytes (by simp [mayWrite]) _ _).advance_emit (hpc nofun) hout _ _
  case loadRegs x =>
    obtain ⟨-, rfl⟩ := exec_loadRegs_eq_next.1 h
    refine (hs.writeRegs _ fun r hr => ?_).advance_emit (hpc nofun) hout _ _
    have hrx : r ≤ x := by simp at hr; omega
    simp [mayWrite, hrx]

end Sys2Proof.Machine
end

section
/-! What any instruction can do to PC and to the two sparse tables, and from that, with what it can do to the stack
(`exec_stack_cases`) and its frame, that every step keeps the invariants of R36. -/

namespace Sys2Proof.Machine

variable {i : Instr} {s t : State}

/-- A skip advances PC by 2 or by 4. -/
theorem State.advance_skip_pc (s : State) (c : Bool) :
    (s.advance (if c then 4 else 2)).pc = s.pc + 2 ∨ (s.advance (if c then 4 else 2)).pc = s.pc + 4 := by
  cases c
  · exact .inl rfl
  · exact .inr rfl

/-- Settles O46, instruction by instruction: all but the jumps, the call, the return, the skips, HALT and the key wait
fall through to PC + 2. -/
theorem pcMovesOnlyAsListed : Obligations.PcMovesOnlyAsListed := by
  intro i s t h
  cases i
  case halt => obtain rfl := exec_halt_eq_next.1 h; exact .inr (.inl ⟨rfl, .inl rfl⟩)
  case jp nnn =>
    obtain rfl := exec_jp_eq_next.1 h
    exact .inr (.inr (.inr (.inl ⟨nnn, .inl rfl, extendAddr_toNat nnn⟩)))
  case call nnn =>
    obtain ⟨u, -, rfl⟩ := exec_call_eq_next.1 h
    exact .inr (.inr (.inr (.inl ⟨nnn, .inr rfl, extendAddr_toNat nnn⟩)))
  case jpV0 nnn =>
    obtain rfl := exec_jpV0_eq_next.1 h
    exact .inr (.inr (.inr (.inr (.inl ⟨nnn, rfl, indexedTarget_toNat _ nnn⟩))))
  case ret =>
    obtain ⟨w, u, hu, rfl⟩ := exec_ret_eq_next.1 h
    obtain ⟨k, j, hk, -, rfl, -⟩ := State.eq_of_pop hu
    exact .inr (.inr (.inr (.inr (.inr ⟨rfl, k, hk, rfl⟩))))
  case ldVxK x =>
    obtain ⟨k, -, rfl⟩ | ⟨-, rfl⟩ := exec_ldVxK_eq_next.1 h
    · exact .inl rfl
    · exact .inr (.inl ⟨rfl, .inr ⟨x, rfl⟩⟩)
  case seImm | sneImm | seReg | sneReg | skp | sknp =>
    simp only [exec_seImm_eq_next, exec_sneImm_eq_next, exec_seReg_eq_next, exec_sneReg_eq_next, exec_skp_eq_next,
      exec_sknp_eq_next] at h
    subst h
    rcases s.advance_skip_pc _ with hpc | hpc
    · exact .inl hpc
    · exact .inr (.inr (.inl ⟨hpc, by simp⟩))
  case drw | ldB | storeRegs | loadRegs =>
    simp only [exec_drw_eq_next, exec_ldB_eq_next, exec_storeRegs_eq_next, exec_loadRegs_eq_next] at h
    obtain ⟨-, rfl⟩ := h
    exact .inl (by simp)
  all_goals
    simp at h
    subst h
    exact .inl rfl

/-- Everything an instruction can do to memory and to the framebuffer: nothing; a block of bytes stored inside memory;
every cell off; or a draw. -/
theorem exec_table_cases (h : exec i s = .next t) :
    (t.mem = s.mem ∧ t.fb = s.fb) ∨
      (∃ a bs, a + bs.length ≤ 4096 ∧ t.mem = (s.storeBytes a bs).mem ∧ t.fb = s.fb) ∨
      (t.mem = s.mem ∧ t.fb = Framebuffer.blank) ∨
      (∃ colour cells, t.mem = s.mem ∧ t.fb = (drawCells colour s.fb cells).1) := by
  cases i
  case ldB x =>
    obtain ⟨hi, rfl⟩ := exec_ldB_eq_next.1 h
    exact .inr (.inl ⟨_, _, hi, rfl, by simp⟩)
  case storeRegs x =>
    obtain ⟨hi, rfl⟩ := exec_storeRegs_eq_next.1 h
    exact .inr (.inl ⟨_, _, by rwa [State.regBlock_length], rfl, by simp⟩)
  case cls => obtain rfl := exec_cls_eq_next.1 h; exact .inr (.inr (.inl ⟨rfl, rfl⟩))
  case drw x y n => obtain ⟨-, rfl⟩ := exec_drw_eq_next.1 h; exact .inr (.inr (.inr ⟨_, _, rfl, rfl⟩))
  case call nnn =>
    obtain ⟨u, hu, rfl⟩ := exec_call_eq_next.1 h
    obtain ⟨-, rfl⟩ := State.eq_of_push hu
    exact .inl ⟨rfl, rfl⟩
  case ret =>
    obtain ⟨w, u, hu, rfl⟩ := exec_ret_eq_next.1 h
    obtain ⟨-, -, -, -, -, rfl⟩ := State.eq_of_pop hu
    exact .inl ⟨rfl, rfl⟩
  case ldVxK x => obtain ⟨k, -, rfl⟩ | ⟨-, rfl⟩ := exec_ldVxK_eq_next.1 h <;> exact .inl ⟨rfl, rfl⟩
  case loadRegs x => obtain ⟨-, rfl⟩ := exec_loadRegs_eq_next.1 h; exact .inl (by simp)
  all_goals
    simp at h
    subst h
    exact .inl ⟨rfl, rfl⟩

/-! ## The parts of the invariant -/

theorem State.Inv.exec_pcLe (hs : s.Inv) (hpc : s.pc.toNat + 2 ≤ 4096) (h : exec i s = .next t) :
    t.pc.toNat ≤ 0x10FE := by
  rcases pcMovesOnlyAsListed i s t h with e | ⟨e, -⟩ | ⟨e, -⟩ | ⟨nnn, -, e⟩ | ⟨nnn, -, e⟩ | ⟨-, k, hk, e⟩
  · rw [e]; bv_omega
  · rw [e]; exact hs.pcLe
  · rw [e]; bv_omega
  · omega
  · omega
  · have := hs.stackLe k (by omega)
    rw [e]; omega

theorem State.Inv.exec_stackLe (hs : s.Inv) (hpc : s.pc.toNat + 2 ≤ 4096) (h : exec i s = .next t) (k : RegIdx)
    (hk : k.val < t.sp.val) : (t.stack[k]).toNat ≤ 0x1000 := by
  rcases exec_stack_cases h with ⟨nnn, -, u, hu, rfl⟩ | ⟨-, w, u, hu, rfl⟩ | ⟨hsp, hst⟩
  · obtain ⟨h16, rfl⟩ := State.eq_of_push hu
    have hk : k.val < s.sp.val + 1 := hk
    show ((s.stack.set s.sp.val (s.pc + 2) h16)[k.val]).toNat ≤ 0x1000
    rw [Vector.getElem_set]
    split
    · bv_omega
    · exact hs.stackLe k (by omega)
  · obtain ⟨-, j, -, hj, -, rfl⟩ := State.eq_of_pop hu
    have hk : k.val < j.val := hk
    exact hs.stackLe k (by omega)
  · rw [hst]; exact hs.stackLe k (hsp ▸ hk)

theorem exec_memWf (hm : s.mem.wf s.params = true) (h : exec i s = .next t) : t.mem.wf t.params = true := by
  have hp : t.params = s.params := exec_frame h .params not_false
  rw [hp]
  rcases exec_table_cases h with ⟨e, -⟩ | ⟨a, bs, ha, e, -⟩ | ⟨e, -⟩ | ⟨_, _, e, -⟩ <;> rw [e]
  · exact hm
  · exact s.storeBytes_memWf hm a bs ha
  · exact hm
  · exact hm

theorem exec_fbWf (hfb : s.fb.wf = true) (h : exec i s = .next t) : t.fb.wf = true := by
  rcases exec_table_cases h with ⟨-, e⟩ | ⟨_, _, -, -, e⟩ | ⟨-, e⟩ | ⟨colour, cells, -, e⟩ <;> rw [e]
  · exact hfb
  · exact hfb
  · exact Framebuffer.blank_wf
  · exact drawCells_wf hfb cells

/-- An instruction fetched from memory keeps the invariants. -/
theorem State.Inv.after_exec (hs : s.Inv) (hpc : s.pc.toNat + 2 ≤ 4096) (h : exec i s = .next t) : t.Inv where
  pcLe := hs.exec_pcLe hpc h
  stackLe := hs.exec_stackLe hpc h
  ovLen := by rw [show t.ov = s.ov from exec_frame h .ov not_false]; exact hs.ovLen
  memWf := exec_memWf hs.memWf h
  fbWf := exec_fbWf hs.fbWf h
  fgLit := by rw [show t.params = s.params from exec_frame h .params not_false]; exact hs.fgLit

/-- Settles O48: the fetch check leaves an instruction at 4094 at most, and from there it keeps the invariants. -/
theorem stepKeepsTheInvariants : Obligations.StepKeepsTheInvariants := by
  intro s t hs h
  rcases step_cases s with ⟨w, -, hpc, he⟩ | ⟨-, -, he⟩ <;> rw [he] at h
  · exact hs.after_exec hpc h
  · cases h

/-! ## The other transactions -/

theorem State.Inv.after_emit (hs : s.Inv) (r : StepResult) (d : Bool) : (s.emit r d).Inv :=
  ⟨hs.pcLe, hs.stackLe, hs.ovLen, hs.memWf, hs.fbWf, hs.fgLit⟩

theorem State.Inv.after_tick (hs : s.Inv) : (tick s).Inv :=
  ⟨hs.pcLe, hs.stackLe, hs.ovLen, hs.memWf, hs.fbWf, hs.fgLit⟩

theorem State.Inv.after_setKeys (hs : s.Inv) (k : Vector Bool 16) : (setKeys k s).Inv :=
  ⟨hs.pcLe, hs.stackLe, hs.ovLen, hs.memWf, hs.fbWf, hs.fgLit⟩

/-- A program the loader accepts ends inside memory, and an accepted overlay has no or at least two records (R254). -/
theorem State.Inv.after_loadProgram (hs : s.Inv) {bytes : List Byte} (hb : bytes.length ≤ progMax)
    (overlay : Option (List OverlayRec)) : (loadProgram bytes overlay s).Inv where
  pcLe := by simp [loadProgram]
  stackLe := by simpa [loadProgram] using hs.stackLe
  ovLen := acceptOverlay_length overlay
  memWf := by
    have hend : progBase + bytes.length ≤ 4096 := by simp only [progBase, progMax] at *; omega
    simpa [loadProgram] using s.storeBytes_memWf hs.memWf progBase bytes hend
  fbWf := by simpa [loadProgram] using hs.fbWf
  fgLit := by simpa [loadProgram] using hs.fgLit

/-- Settles O60, transaction by transaction; a step that faults changes only the record of its outputs. -/
theorem transactionsKeepTheInvariants : Obligations.TransactionsKeepTheInvariants := by
  intro tx s t r hs h
  cases tx with
  | load bytes overlay =>
    rw [transact] at h
    rcases loadTransaction_cases bytes overlay s with ⟨-, e⟩ | ⟨-, -, e⟩ | ⟨-, hb, e⟩ <;> rw [e] at h <;> cases h
    · exact hs
    · exact hs.after_loadProgram hb overlay
  | step =>
    rw [transact] at h
    rcases stepTransaction_cases s with ⟨u, hu, e⟩ | ⟨f, -, e⟩ <;> rw [e] at h <;> cases h
    · exact stepKeepsTheInvariants s t hs hu
    · exact hs.after_emit _ _
  | tick => cases h; exact hs.after_tick
  | setKeys k => cases h; exact hs.after_setKeys k
  | fbRead c => cases h; exact hs

/-! ## Reset and the reachable states -/

theorem State.resetWith_inv {p : Config.Params} (hp : p.defaultFg ≠ 0) : (State.resetWith p).Inv where
  pcLe := Nat.zero_le _
  stackLe _ hk := absurd hk (Nat.not_lt_zero _)
  ovLen := Nat.zero_ne_one
  memWf := Memory.reset_wf p
  fbWf := Framebuffer.blank_wf
  fgLit := hp

/-- Settles O49: reset lists no byte, no cell and no record, and PC and SP are 0. -/
theorem resetMeetsTheInvariants : Obligations.ResetMeetsTheInvariants :=
  ⟨fun _ => State.resetWith_inv, State.resetWith_inv (by decide)⟩

/-- Settles O50, by induction on how the state is reached. -/
theorem reachableStatesMeetTheInvariants : Obligations.ReachableStatesMeetTheInvariants := by
  intro s hs
  induction hs with
  | reset p hp => exact State.resetWith_inv hp
  | transact tx _ h ih => exact transactionsKeepTheInvariants tx _ _ _ ih h

/-- Settles O51: reset's fields are written out, and memory, which lists nothing, reads as its unlisted contents. -/
theorem resetLeavesTheListedValues : Obligations.ResetLeavesTheListedValues := by
  intro p
  have hlow (a : Nat) (h : a < 80) : (State.resetWith p).readByte a = p.font[a] := dif_pos h
  have hhigh (a : Nat) (h : 80 ≤ a) : (State.resetWith p).readByte a = 0 := dif_neg (by omega)
  refine ⟨fun x => ?_, rfl, rfl, rfl, fun k => ?_, rfl, rfl, fun k => ?_, fun _ => rfl, rfl, hlow, hhigh⟩
  · exact Vector.getElem_replicate _
  · exact Vector.getElem_replicate _
  · exact Vector.getElem_replicate _

end Sys2Proof.Machine
end

section
/-! The access matrix of R35 as statements: who writes a location, who reads KEY, DT, ST and OV; the flag writers of
R21; and the return that undoes a call. -/

namespace Sys2Proof.Machine

/-! ## Writers -/

/-- Settles O44: what has changed is not in the frame, so the instruction is one of those `mayWrite` lists. -/
theorem onlyListedInstructionsWrite : Obligations.OnlyListedInstructionsWrite := by
  intro i s t _ _ h
  have hf : Frame (mayWrite i) s t := exec_frame h
  have hw (l : Loc) (hl : ¬ l.same s t) : mayWrite i l := not_imp_comm.1 (hf l) hl
  have hkey : t.key = s.key := Vector.ext fun k hk => hf (.key ⟨k, hk⟩) not_false
  exact ⟨⟨hkey, hf .ov not_false, hf .params not_false, hf .loaded not_false⟩, fun r => hw (.v r), hw .pc,
    fun ⟨k, hk⟩ => hw (.stack k) hk, hw .sp, hw .i, hw .dt, hw .st, fun ⟨c, hc⟩ => hw (.fb c) hc,
    fun ⟨a, ha⟩ => hw (.mem a) ha, hw .draws⟩

/-! ## Readers -/

/-- A replacement of one of the locations whose readers R35 lists: KEY, DT, ST or OV. -/
inductive Poke where
  | key (k : Vector Bool 16)
  | dt (b : Byte)
  | st (b : Byte)
  | ov (recs : List OverlayRec)

/-- The state with the location replaced. -/
def Poke.apply : Poke → State → State
  | .key k, s => setKeys k s
  | .dt b, s => s.writeDt b
  | .st b, s => s.writeSt b
  | .ov recs, s => { s with ov := recs }

/-- The instructions R35 lists as readers or writers of the location. -/
def Poke.Concerns (p : Poke) (i : Instr) : Prop :=
  match p with
  | .key _ => ∃ x, i = .skp x ∨ i = .sknp x ∨ i = .ldVxK x
  | .dt _ => ∃ x, i = .ldVxDt x ∨ i = .ldDt x
  | .st _ => ∃ x, i = .ldSt x
  | .ov _ => ∃ x y n, i = .drw x y n

theorem Poke.loadBytes (p : Poke) (s : State) (a n : Nat) : (p.apply s).loadBytes a n = s.loadBytes a n :=
  State.loadBytes_congr (fun _ => by cases p <;> rfl) a n

theorem Poke.storeBytes (p : Poke) (s : State) (a : Nat) (bs : List Byte) :
    (p.apply s).storeBytes a bs = p.apply (s.storeBytes a bs) :=
  State.storeBytes_comm p.apply (fun _ _ _ => by cases p <;> rfl) s a bs

theorem Poke.writeRegs (p : Poke) (s : State) (k : Nat) (bs : List Byte) :
    (p.apply s).writeRegs k bs = p.apply (s.writeRegs k bs) :=
  State.writeRegs_comm p.apply (fun _ _ _ => by cases p <;> rfl) s k bs

theorem Poke.push (p : Poke) (s : State) (w : Word) : (p.apply s).push w = (s.push w).map p.apply := by
  by_cases h : s.sp.val < 16 <;> cases p <;>
    simp [State.push, Poke.apply, setKeys, State.writeDt, State.writeSt, h]

theorem Poke.pop (p : Poke) (s : State) : (p.apply s).pop = s.pop.map (Prod.map id p.apply) := by
  by_cases h : 0 < s.sp.val <;> cases p <;>
    simp [State.pop, Poke.apply, setKeys, State.writeDt, State.writeSt, h]

theorem Poke.completeNext (p : Poke) (s : State) : completeNext (p.apply s) = mapNext p.apply (completeNext s) := by
  cases p <;> rfl

theorem Poke.drawTargets (p : Poke) (s : State) (x y : RegIdx) (n : Nibble) :
    (p.apply s).drawTargets x y n = s.drawTargets x y n := by
  simp only [State.drawTargets, p.loadBytes]
  cases p <;> rfl

/-- The replaced location is the only difference before an instruction it does not concern, and after it. -/
theorem exec_poke {p : Poke} {i : Instr} (hp : ¬ p.Concerns i) (s : State) :
    exec i (p.apply s) = mapNext p.apply (exec i s) := by
  have hi : (p.apply s).i = s.i := by cases p <;> rfl
  have hpc : (p.apply s).pc = s.pc := by cases p <;> rfl
  have hv (x : RegIdx) : (p.apply s).readV x = s.readV x := by cases p <;> rfl
  cases i
  case ret =>
    simp only [exec, execRet, p.pop]
    cases s.pop with
    | none => rfl
    | some wu => cases p <;> rfl
  case call nnn =>
    simp only [exec, execCall, hpc, p.push]
    cases s.push (s.pc + 2) with
    | none => rfl
    | some u => cases p <;> rfl
  case ldB x =>
    simp only [exec, execLdB, hi, hv, p.storeBytes, p.completeNext]
    split <;> rfl
  case storeRegs x =>
    have hb : (p.apply s).regBlock x = s.regBlock x := by cases p <;> rfl
    simp only [exec, execStoreRegs, hi, hb, p.storeBytes, p.completeNext]
    split <;> rfl
  case loadRegs x =>
    simp only [exec, execLoadRegs, hi, p.loadBytes, p.writeRegs, p.completeNext]
    split <;> rfl
  case drw x y n =>
    have ho : (p.apply s).drawOutcome x y n = s.drawOutcome x y n := by
      simp only [State.drawOutcome, p.drawTargets]
      cases p with
      | ov _ => exact absurd ⟨x, y, n, rfl⟩ hp
      | _ => rfl
    simp only [exec, execDrw, hi, ho, p.drawTargets]
    split
    · cases p <;> rfl
    · rfl
  case ldVxK x =>
    have hk : (p.apply s).firstKey = s.firstKey := by
      cases p with
      | key _ => exact absurd ⟨x, .inr (.inr rfl)⟩ hp
      | _ => rfl
    simp only [exec, execLdVxK, hk]
    cases s.firstKey <;> cases p <;> rfl
  case skp x =>
    cases p with
    | key _ => exact absurd ⟨x, .inl rfl⟩ hp
    | _ => rfl
  case sknp x =>
    cases p with
    | key _ => exact absurd ⟨x, .inr (.inl rfl)⟩ hp
    | _ => rfl
  case ldVxDt x =>
    cases p with
    | dt _ => exact absurd ⟨x, .inl rfl⟩ hp
    | _ => rfl
  case ldDt x =>
    cases p with
    | dt _ => exact absurd ⟨x, .inr rfl⟩ hp
    | _ => rfl
  case ldSt x =>
    cases p with
    | st _ => exact absurd ⟨x, rfl⟩ hp
    | _ => rfl
  all_goals cases p <;> rfl

/-- Settles O45: each of the four replacements is a `Poke`. -/
theorem onlyListedInstructionsRead : Obligations.OnlyListedInstructionsRead := by
  refine fun i s => ⟨fun k h => exec_poke (p := .key k) ?_ s, fun b h => exec_poke (p := .dt b) ?_ s,
    fun b h => exec_poke (p := .st b) ?_ s, fun recs h => exec_poke (p := .ov recs) ?_ s⟩
  · rintro ⟨x, e | e | e⟩
    · exact (h x).1 e
    · exact (h x).2.1 e
    · exact (h x).2.2 e
  · rintro ⟨x, e | e⟩
    · exact (h x).1 e
    · exact (h x).2 e
  · rintro ⟨x, e⟩
    exact h x e
  · rintro ⟨x, y, n, e⟩
    exact h x y n e

/-! ## Flag writers -/

theorem State.setFlag_zeroOrOne (s : State) (f : Bool) : (s.setFlag f).readV 15 = 0 ∨ (s.setFlag f).readV 15 = 1 := by
  rw [State.setFlag_readV]
  cases f
  · exact .inl rfl
  · exact .inr rfl

/-- Settles O26: the shifts and the draw write the flag last; the other three write Vx after it, which is not VF. -/
theorem flagWritersLeaveZeroOrOne : Obligations.FlagWritersLeaveZeroOrOne := by
  rintro x y n i s t h (rfl | rfl | rfl | ⟨hx, rfl | rfl | rfl⟩)
  · obtain rfl := exec_shrReg_eq_next.1 h
    exact State.setFlag_zeroOrOne _ _
  · obtain rfl := exec_shlReg_eq_next.1 h
    exact State.setFlag_zeroOrOne _ _
  · obtain ⟨-, rfl⟩ := exec_drw_eq_next.1 h
    exact State.setFlag_zeroOrOne _ _
  all_goals
    simp only [exec_addReg_eq_next, exec_subReg_eq_next, exec_subnReg_eq_next] at h
    subst h
    rw [State.emit_readV, State.advance_readV, State.writeV_readV_ne _ _ hx.symm]
    exact State.setFlag_zeroOrOne _ _

/-! ## Call and return -/

/-- Settles O15: the call leaves PC + 2 in the slot below its SP, and that slot is what the return pops. -/
theorem returnUndoesCall : Obligations.ReturnUndoesCall := by
  intro nnn s t u h hstack hsp
  obtain ⟨v, hv, rfl⟩ := exec_call_eq_next.1 h
  obtain ⟨h16, rfl⟩ := State.eq_of_push hv
  have hsp : u.sp.val = s.sp.val + 1 := congrArg Fin.val hsp
  have hstack : u.stack = s.stack.set s.sp.val (s.pc + 2) h16 := hstack
  rcases u.pop_cases with ⟨k, j, hk, hj, hp⟩ | ⟨h0, -⟩
  · have hks : k.val = s.sp.val := by omega
    have hframe : Frame (fun l => l = .pc ∨ l = .sp ∨ l = .out) u u := Frame.refl _ u
    refine ⟨_, exec_ret_eq_next.2 ⟨_, _, hp, rfl⟩, ?_, ?_,
      ((hframe.pop hp (.inr (.inl rfl))).writePc (.inl rfl) _).emit (.inr (.inr rfl)) _ _⟩
    · simp [hstack, hks]
    · exact Fin.ext (by simp; omega)
  · omega

end Sys2Proof.Machine
end

section
/-! Memory (spec/20_memory.md): what a block store leaves in memory, and the fetch that follows it. -/

namespace Sys2Proof.Machine

/-- Fx55 leaves V0..Vx in the bytes from I on (R176). -/
theorem exec_storeRegs_readByte {x k : RegIdx} {s t : State} (hm : s.mem.wf s.params = true)
    (h : exec (.storeRegs x) s = .next t) (hk : k ≤ x) : t.readByte (s.i.toNat + k.val) = s.readV k := by
  obtain ⟨hin, rfl⟩ := exec_storeRegs_eq_next.1 h
  have hkx : k.val ≤ x.val := hk
  rw [State.emit_readByte, State.advance_readByte, s.storeBytes_readByte hm _ _ (by simpa using hin),
    dif_pos (by simp; omega), State.regBlock_getElem]
  simp

/-- Settles O40: both bytes at PC lie in the block just stored, so the fetch is in memory and puts Vk and Vj together. -/
theorem storedBytesAreFetchedNext : Obligations.StoredBytesAreFetchedNext := by
  intro x k j s t hm h hjk hjx hpc
  have hin := (exec_storeRegs_eq_next.1 h).1
  have hjx' : j.val ≤ x.val := hjx
  have hk : t.readByte t.pc.toNat = s.readV k :=
    hpc ▸ exec_storeRegs_readByte hm h (Fin.le_def.2 (by omega))
  have hj : t.readByte (t.pc.toNat + 1) = s.readV j := by
    rw [hpc, Nat.add_assoc, ← hjk]
    exact exec_storeRegs_readByte hm h hjx
  rcases t.fetch_cases with ⟨-, w, hw, hval⟩ | ⟨hout, -⟩
  · exact ⟨w, by rw [hval, hk, hj], by rw [step, hw]⟩
  · omega

end Sys2Proof.Machine
end

section
/-! The encoding (spec/30_encoding.md). `decode w = i` says the same as `i.wf` with `encode i = w` (`decode_eq_iff`), so
the rows of R75 and the list of R77 are read off the patterns of the encoder. -/

namespace Sys2Proof

/-- Settles O2: both sides of each formula are the same quotient or remainder of the word's number. -/
theorem fieldsAreCutFromTheWord : Obligations.FieldsAreCutFromTheWord := by
  intro w
  have h4 (m : Nat) : m &&& 0xF = m % 16 := Nat.and_two_pow_sub_one_eq_mod m 4
  have h8 (m : Nat) : m &&& 0xFF = m % 256 := Nat.and_two_pow_sub_one_eq_mod m 8
  have h12 (m : Nat) : m &&& 0xFFF = m % 4096 := Nat.and_two_pow_sub_one_eq_mod m 12
  simp only [fieldOp_toNat, fieldX_val, fieldY_val, fieldN_toNat, fieldKK_toNat, fieldNNN_toNat, h4, h8, h12,
    Nat.shiftRight_eq_div_pow, true_and]
  omega

section patterns
variable {w : Word} {op n : Nibble} {kk : Byte}

/-! ## Which words a pattern packs -/

theorem packXYN_eq_iff : packXYN op (fieldX w) (fieldY w) n = w ↔ fieldOp w = op ∧ fieldN w = n := by
  constructor
  · intro h; rw [← h]; simp
  · rintro ⟨rfl, rfl⟩; exact packXYN_fields w

theorem packXK_eq_iff : packXK op (fieldX w) kk = w ↔ fieldOp w = op ∧ fieldKK w = kk := by
  constructor
  · intro h; rw [← h]; simp
  · rintro ⟨rfl, rfl⟩; exact packXK_fields w

theorem packA_eq_iff : packA op (fieldNNN w) = w ↔ fieldOp w = op := by
  constructor
  · intro h; rw [← h]; simp
  · rintro rfl; exact packA_fields w

/-! ## The masks of R75 cut out fields -/

theorem and_F000 (w : Word) : w &&& 0xF000 = packA (fieldOp w) 0 := by
  have h : fieldOp w ++ fieldNNN w &&& BitVec.allOnes 4 ++ 0#12 = fieldOp w ++ 0#12 := by
    rw [BitVec.and_append, BitVec.and_allOnes, BitVec.and_zero]
  rwa [← packA, packA_fields] at h

theorem and_F00F (w : Word) : w &&& 0xF00F = packXYN (fieldOp w) 0 0 (fieldN w) := by
  have h : fieldOp w ++ regBits (fieldX w) ++ regBits (fieldY w) ++ fieldN w &&&
      BitVec.allOnes 4 ++ 0#4 ++ 0#4 ++ BitVec.allOnes 4 = fieldOp w ++ 0#4 ++ 0#4 ++ fieldN w := by
    simp only [BitVec.and_append, BitVec.and_allOnes, BitVec.and_zero]
  rwa [← packXYN, packXYN_fields] at h

theorem and_F0FF (w : Word) : w &&& 0xF0FF = packXK (fieldOp w) 0 (fieldKK w) := by
  have h : fieldOp w ++ regBits (fieldX w) ++ fieldKK w &&& BitVec.allOnes 4 ++ 0#4 ++ BitVec.allOnes 8 =
      fieldOp w ++ 0#4 ++ fieldKK w := by
    simp only [BitVec.and_append, BitVec.and_allOnes, BitVec.and_zero]
  rwa [← packXK, packXK_fields] at h

theorem and_F000_eq_iff : w &&& 0xF000 = packA op 0 ↔ fieldOp w = op := by
  rw [and_F000]
  exact ⟨fun h => by simpa using congrArg fieldOp h, fun h => by rw [h]⟩

theorem and_F00F_eq_iff : w &&& 0xF00F = packXYN op 0 0 n ↔ fieldOp w = op ∧ fieldN w = n := by
  rw [and_F00F]
  exact ⟨fun h => ⟨by simpa using congrArg fieldOp h, by simpa using congrArg fieldN h⟩,
    fun ⟨h, k⟩ => by rw [h, k]⟩

theorem and_F0FF_eq_iff : w &&& 0xF0FF = packXK op 0 kk ↔ fieldOp w = op ∧ fieldKK w = kk := by
  rw [and_F0FF]
  exact ⟨fun h => ⟨by simpa using congrArg fieldOp h, by simpa using congrArg fieldKK h⟩,
    fun ⟨h, k⟩ => by rw [h, k]⟩

/-! ## The unrecognised words (R77) -/

theorem decode0_of_unrecognised (h : unrecognised0 w = true) : decode0 w = .unk w := by
  simp_all [unrecognised0, decode0]

theorem unrecognised8_iff : unrecognised8 w = true ↔
    (fieldN w).toNat ∈ [0x8, 0x9, 0xA, 0xB, 0xC, 0xD, 0xF] := by
  have h : ∀ n : Nibble, (n == 0x8#4 || n == 0x9#4 || n == 0xA#4 || n == 0xB#4 || n == 0xC#4 || n == 0xD#4 ||
      n == 0xF#4) = true ↔ n.toNat ∈ [0x8, 0x9, 0xA, 0xB, 0xC, 0xD, 0xF] := by decide
  exact h (fieldN w)

theorem decode8_of_unrecognised (h : unrecognised8 w = true) : decode8 w = .unk w := by
  simp only [unrecognised8_iff, List.mem_cons, List.not_mem_nil, or_false] at h
  rcases h with h | h | h | h | h | h | h <;> simp only [decode8, h]

theorem unrecognisedE_iff : unrecognisedE w = true ↔ fieldKK w ∉ [0x9E#8, 0xA1#8] := by
  simp [unrecognisedE, fieldKK]

theorem unrecognisedF_iff : unrecognisedF w = true ↔
    fieldKK w ∉ [0x07#8, 0x0A#8, 0x15#8, 0x18#8, 0x1E#8, 0x29#8, 0x33#8, 0x55#8, 0x65#8] := by
  simp [unrecognisedF, fieldKK, and_assoc]

theorem decodeE_of_unrecognised (h : unrecognisedE w = true) : decodeE w = .unk w := by
  simp_all [unrecognisedE_iff, decodeE]

theorem decodeF_of_unrecognised (h : unrecognisedF w = true) : decodeF w = .unk w := by
  simp_all [unrecognisedF_iff, decodeF]

theorem isUnrecognised_iff : isUnrecognised w = true ↔
    (fieldOp w = 0x0 ∧ unrecognised0 w = true) ∨ (fieldOp w = 0x8 ∧ unrecognised8 w = true) ∨
      (fieldOp w = 0xE ∧ unrecognisedE w = true) ∨ (fieldOp w = 0xF ∧ unrecognisedF w = true) := by
  simp [isUnrecognised, fieldOp, or_assoc]

theorem decode_of_isUnrecognised (h : isUnrecognised w = true) : decode w = .unk w := by
  rcases isUnrecognised_iff.1 h with ⟨hop, h⟩ | ⟨hop, h⟩ | ⟨hop, h⟩ | ⟨hop, h⟩ <;> simp only [decode, hop]
  · exact decode0_of_unrecognised h
  · exact decode8_of_unrecognised h
  · exact decodeE_of_unrecognised h
  · exact decodeF_of_unrecognised h

/-! ## A family's words come back from their decoding -/

theorem encode_decode0 (hop : fieldOp w = 0x0) : (decode0 w).wf = true ∧ encode (decode0 w) = w := by
  unfold decode0
  split_ifs with h1 h2 h3
  · exact ⟨rfl, h1.symm⟩
  · exact ⟨rfl, h2.symm⟩
  · exact ⟨rfl, h3.symm⟩
  · exact ⟨isUnrecognised_iff.2 (.inl ⟨hop, by simp [unrecognised0, *]⟩), rfl⟩

theorem encode_decode8 (hop : fieldOp w = 0x8) : (decode8 w).wf = true ∧ encode (decode8 w) = w := by
  unfold decode8
  split
  case h_10 =>
    refine ⟨isUnrecognised_iff.2 (.inr (.inl ⟨hop, unrecognised8_iff.2 ?_⟩)), rfl⟩
    have := (fieldN w).isLt
    simp only [imp_false, List.mem_cons, List.not_mem_nil] at *
    omega
  all_goals exact ⟨rfl, packXYN_eq_iff.2 ⟨hop, BitVec.eq_of_toNat_eq ‹_›⟩⟩

theorem encode_decodeE (hop : fieldOp w = 0xE) : (decodeE w).wf = true ∧ encode (decodeE w) = w := by
  unfold decodeE
  split_ifs
  case neg => exact ⟨isUnrecognised_iff.2 (.inr (.inr (.inl ⟨hop, unrecognisedE_iff.2 (by simp [*])⟩))), rfl⟩
  all_goals exact ⟨rfl, packXK_eq_iff.2 ⟨hop, ‹_›⟩⟩

theorem encode_decodeF (hop : fieldOp w = 0xF) : (decodeF w).wf = true ∧ encode (decodeF w) = w := by
  unfold decodeF
  dsimp only
  split_ifs
  case neg => exact ⟨isUnrecognised_iff.2 (.inr (.inr (.inr ⟨hop, unrecognisedF_iff.2 (by simp [*])⟩))), rfl⟩
  all_goals exact ⟨rfl, packXK_eq_iff.2 ⟨hop, ‹_›⟩⟩

end patterns

/-! ## The round trips -/

/-- Settles O5: the fields of a packed word are the operands packed, so each pattern takes its own arm of `decode`, by way
of the second dispatch in families 8, E and F. -/
theorem decodeOfEncodeIsTheInstruction : Obligations.DecodeOfEncodeIsTheInstruction := by
  intro i hi
  cases i
  case unk w => exact decode_of_isUnrecognised hi
  case cls | ret | halt => rfl
  case jp | call | ldI | jpV0 | seImm | sneImm | ldImm | addImm | rnd | seReg | sneReg | drw => simp [encode, decode]
  case ldReg | orReg | andReg | xorReg | addReg | subReg | shrReg | subnReg | shlReg =>
    simp [encode, decode, decode8]
  case skp | sknp => simp [encode, decode, decodeE]
  case ldVxDt | ldVxK | ldDt | ldSt | addI | ldF | ldB | storeRegs | loadRegs => simp [encode, decode, decodeF]

/-- Settles O6, family by family: each arm of `decode` leaves the fields its pattern packs again. -/
theorem encodeOfDecodeIsTheWord : Obligations.EncodeOfDecodeIsTheWord := by
  intro w
  unfold decode
  split
  case h_1 h => exact encode_decode0 (BitVec.eq_of_toNat_eq h)
  case h_9 h => exact encode_decode8 (BitVec.eq_of_toNat_eq h)
  case h_15 h => exact encode_decodeE (BitVec.eq_of_toNat_eq h)
  case h_16 =>
    have hlt := (fieldOp w).isLt
    simp only [imp_false] at *
    have h : (fieldOp w).toNat = 15 := by omega
    exact encode_decodeF (BitVec.eq_of_toNat_eq h)
  case h_2 h | h_3 h | h_11 h | h_12 h => exact ⟨rfl, packA_eq_iff.2 (BitVec.eq_of_toNat_eq h)⟩
  case h_4 h | h_5 h | h_7 h | h_8 h | h_13 h => exact ⟨rfl, packXK_eq_iff.2 ⟨BitVec.eq_of_toNat_eq h, rfl⟩⟩
  case h_6 h | h_10 h | h_14 h => exact ⟨rfl, packXYN_eq_iff.2 ⟨BitVec.eq_of_toNat_eq h, rfl⟩⟩

/-- The two round trips in one: the decoder finds the one well-formed instruction with the given word. -/
theorem decode_eq_iff {w : Word} {i : Instr} : decode w = i ↔ i.wf = true ∧ encode i = w := by
  constructor
  · rintro rfl; exact encodeOfDecodeIsTheWord w
  · rintro ⟨hi, rfl⟩; exact decodeOfEncodeIsTheInstruction i hi

theorem decode_eq_unk_iff {w : Word} : decode w = .unk w ↔ isUnrecognised w = true := by
  simp [decode_eq_iff, Instr.wf, encode]

/-- Settles O7: `isUnrecognised` is R77's list, said on the fields' numbers. -/
theorem unrecognisedWordsAreTheListedOnes : Obligations.UnrecognisedWordsAreTheListedOnes := by
  intro w
  rw [decode_eq_unk_iff, isUnrecognised_iff, unrecognised8_iff, unrecognisedE_iff, unrecognisedF_iff]
  simp [unrecognised0, ← BitVec.toNat_inj, fieldOp_toNat, fieldN_toNat, fieldKK_toNat, and_assoc]

/-! ## The rows of R75 -/

section rows
variable (w : Word) (op n : Nibble) (kk : Byte)

theorem matches_whole_iff (p : Word) : w &&& 0xFFFF = p ↔ p = w := by
  rw [show (0xFFFF : Word) = BitVec.allOnes 16 from rfl, BitVec.and_allOnes, eq_comm]

theorem matches_packA_iff : w &&& 0xF000 = packA op 0 ↔ packA op (fieldNNN w) = w :=
  and_F000_eq_iff.trans packA_eq_iff.symm

theorem matches_packXK_iff : w &&& 0xF000 = packA op 0 ↔ packXK op (fieldX w) (fieldKK w) = w := by
  rw [and_F000_eq_iff, packXK_eq_iff, and_iff_left rfl]

theorem matches_packXYN_iff : w &&& 0xF000 = packA op 0 ↔ packXYN op (fieldX w) (fieldY w) (fieldN w) = w := by
  rw [and_F000_eq_iff, packXYN_eq_iff, and_iff_left rfl]

theorem matches_packXY_iff : w &&& 0xF00F = packXYN op 0 0 n ↔ packXYN op (fieldX w) (fieldY w) n = w :=
  and_F00F_eq_iff.trans packXYN_eq_iff.symm

theorem matches_packXF_iff : w &&& 0xF0FF = packXK op 0 kk ↔ packXK op (fieldX w) kk = w :=
  and_F0FF_eq_iff.trans packXK_eq_iff.symm

theorem tableRowsLow_matches_iff : ∀ r ∈ tableRowsLow, (w &&& r.mask = r.pattern ↔ encode (r.instr w) = w) := by
  simp only [tableRowsLow, List.cons_append, List.nil_append, List.forall_mem_cons]
  exact ⟨matches_whole_iff w _, matches_whole_iff w _, matches_whole_iff w _,
    matches_packA_iff w 0x1, matches_packA_iff w 0x2, matches_packXK_iff w 0x3, matches_packXK_iff w 0x4,
    matches_packXYN_iff w 0x5, matches_packXK_iff w 0x6, matches_packXK_iff w 0x7,
    matches_packXY_iff w 0x8 0x0, matches_packXY_iff w 0x8 0x1, matches_packXY_iff w 0x8 0x2,
    matches_packXY_iff w 0x8 0x3, matches_packXY_iff w 0x8 0x4, matches_packXY_iff w 0x8 0x5,
    matches_packXY_iff w 0x8 0x6, matches_packXY_iff w 0x8 0x7, matches_packXY_iff w 0x8 0xE,
    matches_packXYN_iff w 0x9, nofun⟩

theorem tableRowsHigh_matches_iff : ∀ r ∈ tableRowsHigh, (w &&& r.mask = r.pattern ↔ encode (r.instr w) = w) := by
  simp only [tableRowsHigh, List.cons_append, List.nil_append, List.forall_mem_cons]
  exact ⟨matches_packA_iff w 0xA, matches_packA_iff w 0xB, matches_packXK_iff w 0xC, matches_packXYN_iff w 0xD,
    matches_packXF_iff w 0xE 0x9E, matches_packXF_iff w 0xE 0xA1,
    matches_packXF_iff w 0xF 0x07, matches_packXF_iff w 0xF 0x0A, matches_packXF_iff w 0xF 0x15,
    matches_packXF_iff w 0xF 0x18, matches_packXF_iff w 0xF 0x1E, matches_packXF_iff w 0xF 0x29,
    matches_packXF_iff w 0xF 0x33, matches_packXF_iff w 0xF 0x55, matches_packXF_iff w 0xF 0x65, nofun⟩

/-- The rows stand in the order of the constructors, so different rows give different instructions. -/
theorem tableRows_ctorIdx : tableRows.map (fun r => (r.instr w).ctorIdx) = List.range 35 := rfl

variable {w} {r : TableRow}

theorem ctorIdx_lt_of_mem_tableRows (hr : r ∈ tableRows) : (r.instr w).ctorIdx < 35 := by
  rw [← List.mem_range, ← tableRows_ctorIdx w]
  exact List.mem_map_of_mem hr

theorem instr_ne_unk (hr : r ∈ tableRows) (v : Word) : r.instr w ≠ .unk v := by
  intro h
  have hlt := ctorIdx_lt_of_mem_tableRows (w := w) hr
  rw [h] at hlt
  exact Nat.lt_irrefl 35 hlt

theorem wf_of_ne_unk {i : Instr} (h : ∀ v, i ≠ .unk v) : i.wf = true := by
  cases i
  case unk v => exact absurd rfl (h v)
  all_goals rfl

theorem matches_iff_decode (hr : r ∈ tableRows) : w &&& r.mask = r.pattern ↔ decode w = r.instr w := by
  rw [decode_eq_iff, and_iff_right (wf_of_ne_unk (instr_ne_unk hr))]
  rcases List.mem_append.1 hr with hr | hr
  · exact tableRowsLow_matches_iff w r hr
  · exact tableRowsHigh_matches_iff w r hr

theorem ctorIdx_lt_of_ne_unk {i : Instr} (h : ∀ v, i ≠ .unk v) : i.ctorIdx < tableRows.length := by
  cases i
  case unk v => exact absurd rfl (h v)
  all_goals exact Nat.le_of_ble_eq_true rfl

/-- The row at an instruction's own place reads that instruction back from its word. -/
theorem tableRows_instr_encode {i : Instr} (h : i.ctorIdx < tableRows.length) :
    tableRows[i.ctorIdx].instr (encode i) = i := by
  cases i
  case unk v => exact absurd h (Nat.lt_irrefl 35)
  all_goals simp [tableRows, tableRowsLow, tableRowsHigh, Instr.ctorIdx, encode]

end rows

/-- Settles O3: a row's mask picks the words its pattern packs, and those are the words that decode to it; rows are told
apart by their constructors; a word that is not UNK's matches the row at its instruction's place. -/
theorem decodeFollowsTheOpcodeMap : Obligations.DecodeFollowsTheOpcodeMap := by
  refine ⟨rfl, fun w => ⟨fun r hr => matches_iff_decode hr, ?_, ?_⟩⟩
  · have hd : (tableRows.map fun r => (r.instr w).ctorIdx).Nodup := tableRows_ctorIdx w ▸ List.nodup_range
    refine (List.pairwise_map.1 hd).imp_of_mem fun hr hq hne ⟨hrw, hqw⟩ => hne ?_
    rw [← (matches_iff_decode hr).1 hrw, ← (matches_iff_decode hq).1 hqw]
  · constructor
    · intro h
      by_contra hne
      have hunk : ∀ v, decode w ≠ .unk v := by
        intro v hv
        obtain rfl : v = w := (decode_eq_iff.1 hv).2
        exact hne hv
      have hlt := ctorIdx_lt_of_ne_unk hunk
      have hrow := tableRows_instr_encode hlt
      rw [(encodeOfDecodeIsTheWord w).2] at hrow
      exact h _ (List.getElem_mem hlt) ((matches_iff_decode (List.getElem_mem hlt)).2 hrow.symm)
    · intro h r hr hm
      exact instr_ne_unk hr w (((matches_iff_decode hr).1 hm).symm.trans h)

/-- Settles O4: nine closed words, decoded. -/
theorem workedEncodingsDecode : Obligations.WorkedEncodingsDecode := by
  unfold Obligations.WorkedEncodingsDecode
  decide

end Sys2Proof
end

section
/-! Family 0 and the unrecognised words (spec/40_family0_system.md): what each leaves, and the halt that repeats. -/

namespace Sys2Proof.Machine

/-! ## HALT -/

/-- The outputs are not fetched, so a step after them fetches the same word. -/
@[simp] theorem State.fetch_emit (s : State) (r : StepResult) (d : Bool) : (s.emit r d).fetch = s.fetch := rfl

@[simp] theorem State.emit_emit (s : State) (r r' : StepResult) (d d' : Bool) :
    (s.emit r d).emit r' d' = s.emit r' d' := rfl

theorem step_of_fetch {s : State} {w : Word} (h : s.fetch = some w) : step s = exec (decode w) s := by
  rw [step, h]

/-- A step whose result is `Halt` has executed HALT: it is the one instruction with that result. -/
theorem step_halted {s t : State} (h : step s = .next t) (ht : t.out.result = .halt) :
    ∃ w, s.fetch = some w ∧ decode w = .halt ∧ t = s.emit .halt false := by
  obtain ⟨w, hw, he⟩ := step_eq_next h
  have hd : decode w = .halt := by
    by_contra hne
    have hr := exec_result he
    rw [ht, if_neg hne] at hr
    cases hr
  rw [hd] at he
  exact ⟨w, hw, hd, exec_halt_eq_next.1 he⟩

/-- Settles O10: HALT writes its outputs alone, which the next step neither fetches nor keeps, so that step executes HALT
again and leaves the same state. -/
theorem haltChangesNothingAndRepeats : Obligations.HaltChangesNothingAndRepeats := by
  constructor
  · intro s
    exact ⟨_, exec_halt_eq_next.2 rfl, s.returned_emit _ _, (Frame.refl (· = .out) s).emit rfl _ _⟩
  · intro s t h ht
    obtain ⟨w, hw, hd, rfl⟩ := step_halted h ht
    rw [step_of_fetch ((s.fetch_emit _ _).trans hw), hd, exec_halt_eq_next, State.emit_emit]

/-! ## CLS, RET and UNK -/

/-- Settles O8: a blank framebuffer is off in every cell. -/
theorem clsTurnsEveryCellOff : Obligations.ClsTurnsEveryCellOff := by
  intro s
  have hframe := ((Frame.refl (fun l => (∃ c, l = .fb c) ∨ l = .pc ∨ l = .out) s).writeFb
    (fun c => .inl ⟨c, rfl⟩) Framebuffer.blank).advance_emit (.inr (.inl rfl)) (.inr (.inr rfl)) 2 true
  exact ⟨_, exec_cls_eq_next.2 rfl, Framebuffer.blank_cell, rfl, State.returned_emit _ _ _, hframe⟩

theorem exec_ret_of_pop_eq_none {s : State} (h : s.pop = none) : exec .ret s = .fault .stackFault := by
  simp only [exec, execRet, h, raise]

/-- Settles O9: a pop succeeds exactly when SP is not 0, and it moves SP alone. -/
theorem retPopsTheTopEntry : Obligations.RetPopsTheTopEntry := by
  intro s
  rcases s.pop_cases with ⟨top, j, htop, hj, hp⟩ | ⟨hsp, hp⟩
  · refine ⟨fun k hk => ?_, fun h0 => by omega⟩
    obtain rfl : k = top := Fin.ext (by omega)
    have hframe := (((Frame.refl (fun l => l = .pc ∨ l = .sp ∨ l = .out) s).pop hp (.inr (.inl rfl))).writePc
      (.inl rfl) s.stack[k]).emit (.inr (.inr rfl)) .cont false
    have hjk : j.val = k.val := by omega
    exact ⟨_, exec_ret_eq_next.2 ⟨_, _, hp, rfl⟩, rfl, hjk, State.returned_emit _ _ _, hframe⟩
  · exact ⟨fun k hk => by omega, fun _ => exec_ret_of_pop_eq_none hp⟩

/-- Settles O11: UNK's word is not read. -/
theorem unrecognisedWordIsANoOp : Obligations.UnrecognisedWordIsANoOp := by
  intro w s
  exact ⟨_, exec_unk_eq_next.2 rfl, rfl, State.returned_emit _ _ _,
    (Frame.refl _ s).advance_emit (.inl rfl) (.inr rfl) 2 false⟩

end Sys2Proof.Machine
end

section
/-! Jumps, calls and conditional skips (spec/41_flow_and_skips.md): where each sends PC, and what it leaves alone. -/

namespace Sys2Proof.Machine

/-! ## Jumps -/

/-- A jump to any target writes PC and its outputs alone. -/
theorem State.writePc_emit_frame (s : State) (w : Word) :
    Frame (fun l => l = .pc ∨ l = .out) s ((s.writePc w).emit .cont false) :=
  ((Frame.refl _ s).writePc (.inl rfl) w).emit (.inr rfl) .cont false

/-- Settles O12: the target is nnn, zero-extended. -/
theorem jpGoesToItsAddress : Obligations.JpGoesToItsAddress := by
  intro nnn s
  exact ⟨_, exec_jp_eq_next.2 rfl, extendAddr_toNat nnn, State.returned_emit _ _ _, State.writePc_emit_frame s _⟩

/-- Settles O13: V0 is at most 0xFF and nnn at most 0xFFF, so the 16-bit sum does not wrap. -/
theorem jpV0GoesToTheUnmaskedSum : Obligations.JpV0GoesToTheUnmaskedSum := by
  intro nnn s
  have hsum : (indexedTarget (s.readV 0) nnn).toNat = (s.readV 0).toNat + nnn.toNat := indexedTarget_toNat _ nnn
  have hbound : (indexedTarget (s.readV 0) nnn).toNat ≤ 0x10FE := by
    have hv := (s.readV 0).isLt
    have hn := nnn.isLt
    omega
  exact ⟨_, exec_jpV0_eq_next.2 rfl, hsum, hbound, State.returned_emit _ _ _, State.writePc_emit_frame s _⟩

/-! ## Calls -/

theorem exec_call_of_push_eq_none {s : State} {nnn : Addr12} (h : s.push (s.pc + 2) = none) :
    exec (.call nnn) s = .fault .stackFault := by
  simp only [exec, execCall, h, raise]

/-- Settles O14: a push succeeds exactly when SP is below 16, and it writes SP and the slot at SP alone. -/
theorem callPushesTheReturnAddress : Obligations.CallPushesTheReturnAddress := by
  intro nnn s
  rcases s.push_cases (s.pc + 2) with ⟨h16, hp⟩ | ⟨hfull, hp⟩
  · refine ⟨fun k hk => ?_, fun hsp => by omega⟩
    have hslot : (s.stack.set s.sp.val (s.pc + 2) h16)[k] = s.pc + 2 := by simp [hk]
    have hpush := (Frame.refl (fun l => l = .stack k ∨ l = .sp ∨ l = .pc ∨ l = .out) s).push hp
      (fun j hj => .inl (congrArg Loc.stack (Fin.ext (hj.trans hk.symm)))) (.inr (.inl rfl))
    have hframe := (hpush.writePc (.inr (.inr (.inl rfl))) (extendAddr nnn)).emit (.inr (.inr (.inr rfl))) .cont false
    exact ⟨_, exec_call_eq_next.2 ⟨_, hp, rfl⟩, hslot, congrArg (· + 1) hk.symm, extendAddr_toNat nnn,
      State.returned_emit _ _ _, hframe⟩
  · exact ⟨fun k hk => by omega, fun _ => exec_call_of_push_eq_none hp⟩

/-! ## Conditional skips -/

/-- Everything a skip does, with its condition as a proposition. -/
theorem completeSkip_advances {s : State} {c : Bool} {p : Prop} [Decidable p] (hc : c = true ↔ p) :
    ∃ t, completeSkip s c = .next t ∧ t.pc = s.pc + (if p then 4 else 2) ∧ t.Returned .cont false ∧
      Frame (fun l => l = .pc ∨ l = .out) s t := by
  refine ⟨_, completeSkip_eq_next.2 rfl, ?_, State.returned_emit _ _ _,
    (Frame.refl _ s).advance_emit (.inl rfl) (.inr rfl) _ false⟩
  simp only [State.emit_pc, State.advance_pc, hc]

/-- Bytes are compared as the numbers they are (R112). -/
theorem byte_beq_iff_toNat_eq {a b : Byte} : (a == b) = true ↔ a.toNat = b.toNat :=
  beq_iff_eq.trans BitVec.toNat_inj.symm

theorem byte_bne_iff_toNat_ne {a b : Byte} : (a != b) = true ↔ a.toNat ≠ b.toNat :=
  bne_iff_ne.trans BitVec.toNat_inj.symm.not

/-- Settles O16: both are `completeSkip`, on the comparison of Vx with kk. -/
theorem immediateSkipsAdvanceByFourOrTwo : Obligations.ImmediateSkipsAdvanceByFourOrTwo := by
  intro x kk s
  constructor
  · exact completeSkip_advances byte_beq_iff_toNat_eq
  · exact completeSkip_advances byte_bne_iff_toNat_ne

/-- Settles O17: both are `completeSkip`, on the comparison of Vx with Vy, and neither reads n. -/
theorem registerSkipsIgnoreTheLowNibble : Obligations.RegisterSkipsIgnoreTheLowNibble := by
  intro x y n s
  constructor
  · exact completeSkip_advances byte_beq_iff_toNat_eq
  · exact completeSkip_advances byte_bne_iff_toNat_ne

end Sys2Proof.Machine
end

section
/-! Immediates, the index load and the random byte (spec/42_load_add_index_random.md): what each writes, and the flag
register that none of them treats as one. -/

namespace Sys2Proof.Machine

/-! ## Ends of an instruction that wrote one register -/

/-- Everything an instruction does that writes Vx and falls through. -/
theorem completeNext_writeV (s : State) (x : RegIdx) (b : Byte) :
    ∃ t, completeNext (s.writeV x b) = .next t ∧ t.readV x = b ∧ t.pc = s.pc + 2 ∧ t.Returned .cont false ∧
      Frame (fun l => l = .v x ∨ l = .pc ∨ l = .out) s t :=
  ⟨_, completeNext_eq_next.2 rfl, State.writeV_readV_same s x b, rfl, State.returned_emit _ _ _,
    ((Frame.refl _ s).writeV (.inl rfl) b).advance_emit (.inr (.inl rfl)) (.inr (.inr rfl)) 2 false⟩

/-- Everything an instruction does that writes I and falls through. -/
theorem completeNext_writeI (s : State) (w : Word) :
    ∃ t, completeNext (s.writeI w) = .next t ∧ t.i = w ∧ t.pc = s.pc + 2 ∧ t.Returned .cont false ∧
      Frame (fun l => l = .i ∨ l = .pc ∨ l = .out) s t :=
  ⟨_, completeNext_eq_next.2 rfl, rfl, rfl, State.returned_emit _ _ _,
    ((Frame.refl _ s).writeI (.inl rfl) w).advance_emit (.inr (.inl rfl)) (.inr (.inr rfl)) 2 false⟩

/-! ## Loads and the addition -/

/-- Settles O18: the one writes kk to Vx, the other nnn, zero-extended, to I. -/
theorem immediateLoadsSetTheirRegister : Obligations.ImmediateLoadsSetTheirRegister := by
  constructor
  · intro x kk s
    exact completeNext_writeV s x kk
  · intro nnn s
    obtain ⟨t, hexec, hi, hrest⟩ := completeNext_writeI s (extendAddr nnn)
    exact ⟨t, hexec, hi ▸ extendAddr_toNat nnn, hrest⟩

/-- Settles O19: a sum of bytes is their sum modulo 256, and Vx alone is written, VF only where it is Vx. -/
theorem addImmediateWrapsWithoutAFlag : Obligations.AddImmediateWrapsWithoutAFlag := by
  intro x kk s
  obtain ⟨t, hexec, hx, hrest⟩ := completeNext_writeV s x (s.readV x + kk)
  exact ⟨t, hexec, hx ▸ BitVec.toNat_add _ _, hrest⟩

/-! ## The random byte -/

/-- Settles O20: the draw moves the counter alone, and what is written after it is the draw masked, whatever it was. -/
theorem rndMasksItsDraw : Obligations.RndMasksItsDraw := by
  intro x kk s
  obtain ⟨t, hexec, hx, hpc, hret, hframe⟩ := completeNext_writeV s.drawByte.2 x (Config.randByte s.draws &&& kk)
  have hle : (t.readV x).toNat ≤ kk.toNat := by
    rw [hx, BitVec.toNat_and]
    exact Nat.and_le_right
  have hbits : ∀ b : Nat, kk.getLsbD b = false → (t.readV x).getLsbD b = false := by
    intro b hb
    rw [hx, BitVec.getLsbD_and, hb, Bool.and_false]
  have hdraws : t.draws = s.draws + 1 := hframe .draws (by simp)
  have hdraw : Frame (fun l => l = .v x ∨ l = .draws ∨ l = .pc ∨ l = .out) s s.drawByte.2 :=
    (Frame.refl _ s).drawByte (.inr (.inl rfl))
  exact ⟨t, hexec, hx, hle, hbits, hdraws, hpc, hret, hdraw.trans (hframe.mono fun l => Or.imp_right .inr)⟩

end Sys2Proof.Machine
end

section
/-! The register-to-register ALU (spec/43_alu_8xyn.md): what each instruction leaves in Vx and in VF, and which of the
two writes stands when they are one register (R130 (e)). -/

namespace Sys2Proof.Machine

/-! ## Copy and logic -/

/-- Settles O21: Vx alone is written, with Vy. -/
theorem copyMovesVyToVx : Obligations.CopyMovesVyToVx := by
  intro x y s
  exact completeNext_writeV s x (s.readV y)

/-- Settles O22: each bit of a bitwise operation is the operation on that bit, and Vx alone is written. -/
theorem logicWorksBitByBitWithoutAFlag : Obligations.LogicWorksBitByBitWithoutAFlag := by
  intro x y s
  refine ⟨?_, ?_, ?_⟩
  · obtain ⟨t, hexec, hx, hrest⟩ := completeNext_writeV s x (s.readV x ||| s.readV y)
    exact ⟨t, hexec, fun _ => hx ▸ BitVec.getLsbD_or, hrest⟩
  · obtain ⟨t, hexec, hx, hrest⟩ := completeNext_writeV s x (s.readV x &&& s.readV y)
    exact ⟨t, hexec, fun _ => hx ▸ BitVec.getLsbD_and, hrest⟩
  · obtain ⟨t, hexec, hx, hrest⟩ := completeNext_writeV s x (s.readV x ^^^ s.readV y)
    exact ⟨t, hexec, fun _ => hx ▸ BitVec.getLsbD_xor, hrest⟩

/-! ## Ends of an instruction that wrote a register and the flag -/

/-- Everything an instruction does that writes VF, then Vx, and falls through: the flag stands unless x = 15. -/
theorem flagThenResult_writes (s : State) (x : RegIdx) (b : Byte) (f : Bool) :
    ∃ t, flagThenResult x b f s = .next t ∧ t.readV x = b ∧ (x ≠ 15 → t.readV 15 = if f then 1 else 0) ∧
      t.pc = s.pc + 2 ∧ t.Returned .cont false ∧
      Frame (fun l => l = .v x ∨ l = .v 15 ∨ l = .pc ∨ l = .out) s t := by
  have hflag : x ≠ 15 → ((s.setFlag f).writeV x b).readV 15 = if f then 1 else 0 := fun hx =>
    (State.writeV_readV_ne _ b hx.symm).trans (State.writeV_readV_same s 15 _)
  have hframe : Frame (fun l => l = .v x ∨ l = .v 15 ∨ l = .pc ∨ l = .out) s ((s.setFlag f).writeV x b) :=
    ((Frame.refl _ s).setFlag (.inr (.inl rfl)) f).writeV (.inl rfl) b
  exact ⟨_, flagThenResult_eq_next.2 rfl, State.writeV_readV_same (s.setFlag f) x b, hflag, rfl,
    State.returned_emit _ _ _, hframe.advance_emit (.inr (.inr (.inl rfl))) (.inr (.inr (.inr rfl))) 2 false⟩

/-- Everything an instruction does that writes Vx, then VF, and falls through: the result stands unless x = 15. -/
theorem resultThenFlag_writes (s : State) (x : RegIdx) (b : Byte) (f : Bool) :
    ∃ t, resultThenFlag x b f s = .next t ∧ (x ≠ 15 → t.readV x = b) ∧ t.readV 15 = (if f then 1 else 0) ∧
      t.pc = s.pc + 2 ∧ t.Returned .cont false ∧
      Frame (fun l => l = .v x ∨ l = .v 15 ∨ l = .pc ∨ l = .out) s t := by
  have hresult : x ≠ 15 → ((s.writeV x b).setFlag f).readV x = b := fun hx =>
    (State.writeV_readV_ne _ _ hx).trans (State.writeV_readV_same s x b)
  have hframe : Frame (fun l => l = .v x ∨ l = .v 15 ∨ l = .pc ∨ l = .out) s ((s.writeV x b).setFlag f) :=
    ((Frame.refl _ s).writeV (.inl rfl) b).setFlag (.inr (.inl rfl)) f
  exact ⟨_, resultThenFlag_eq_next.2 rfl, hresult, State.writeV_readV_same (s.writeV x b) 15 _, rfl,
    State.returned_emit _ _ _, hframe.advance_emit (.inr (.inr (.inl rfl))) (.inr (.inr (.inr rfl))) 2 false⟩

/-! ## The flags and the results as numbers -/

@[simp] theorem flagCarry_iff {vx vy : Byte} : flagCarry vx vy = true ↔ vx.toNat + vy.toNat > 255 :=
  decide_eq_true_iff

@[simp] theorem flagGreater_iff {vx vy : Byte} : flagGreater vx vy = true ↔ vx.toNat > vy.toNat :=
  decide_eq_true_iff

@[simp] theorem flagNotGreater_iff {vx vy : Byte} : flagNotGreater vx vy = true ↔ ¬ vx.toNat > vy.toNat := by
  simp [flagNotGreater]

/-- What a flag write leaves in VF, as a number (R21). -/
theorem flagByte_toNat (f : Bool) : (if f then 1 else 0 : Byte).toNat = f.toNat := by
  cases f <;> rfl

/-- Bit 0 is the remainder of the halving (R137). -/
theorem flagShr_toNat (vy : Byte) : (flagShr vy).toNat = vy.toNat % 2 := by
  rw [flagShr, ← BitVec.testBit_toNat, Nat.toNat_testBit, pow_zero, Nat.div_one]

/-- Bit 7 is the carry of the doubling (R139). -/
theorem flagShl_toNat (vy : Byte) : (flagShl vy).toNat = vy.toNat / 128 := by
  have hlt := vy.isLt
  rw [flagShl, ← BitVec.testBit_toNat, Nat.toNat_testBit]
  omega

/-- A difference of bytes, plus 256 where it is negative (R130 (c)). -/
theorem byte_sub_toNat (a b : Byte) :
    (a - b).toNat = if b.toNat ≤ a.toNat then a.toNat - b.toNat else a.toNat + 256 - b.toNat := by
  have ha := a.isLt
  have hb := b.isLt
  rw [BitVec.toNat_sub]
  split <;> omega

theorem byte_shr_one_toNat (a : Byte) : (a >>> 1).toNat = a.toNat / 2 := by
  rw [BitVec.toNat_ushiftRight, Nat.shiftRight_one]

theorem byte_shl_one_toNat (a : Byte) : (a <<< 1).toNat = a.toNat * 2 % 256 := by
  rw [BitVec.toNat_shiftLeft, Nat.shiftLeft_eq]

/-! ## Sum, differences, shifts -/

/-- Settles O23: the carry is written to VF before the sum is written to Vx, so it stands unless they are one. -/
theorem addSetsCarryUnlessVxIsVF : Obligations.AddSetsCarryUnlessVxIsVF := by
  intro x y s
  obtain ⟨t, hexec, hx, hflag, hrest⟩ :=
    flagThenResult_writes s x (s.readV x + s.readV y) (flagCarry (s.readV x) (s.readV y))
  simp only [flagCarry_iff] at hflag
  exact ⟨t, hexec, hx ▸ BitVec.toNat_add _ _, hflag, hrest⟩

/-- Settles O24: as the sum, with a difference that wraps; the two flags are each other's negation on the same
comparison of Vx with Vy. -/
theorem subtractionsWrapAndFlag : Obligations.SubtractionsWrapAndFlag := by
  intro x y s
  constructor
  · obtain ⟨t, hexec, hx, hflag, hrest⟩ :=
      flagThenResult_writes s x (s.readV x - s.readV y) (flagGreater (s.readV x) (s.readV y))
    simp only [flagGreater_iff] at hflag
    exact ⟨t, hexec, hx ▸ byte_sub_toNat _ _, hflag, hrest⟩
  · obtain ⟨t, hexec, hx, hflag, hrest⟩ :=
      flagThenResult_writes s x (s.readV y - s.readV x) (flagNotGreater (s.readV x) (s.readV y))
    simp only [flagNotGreater_iff, ite_not] at hflag
    exact ⟨t, hexec, hx ▸ byte_sub_toNat _ _, hflag, hrest⟩

/-- Settles O25: the shifted value is written to Vx before the bit shifted out is written to VF, so the flag always
stands. -/
theorem shiftsReadVyAndWriteTheFlagLast : Obligations.ShiftsReadVyAndWriteTheFlagLast := by
  intro x y s
  constructor
  · obtain ⟨t, hexec, hx, hflag, hrest⟩ := resultThenFlag_writes s x (s.readV y >>> 1) (flagShr (s.readV y))
    exact ⟨t, hexec, fun h => hx h ▸ byte_shr_one_toNat _, hflag ▸ (flagByte_toNat _).trans (flagShr_toNat _), hrest⟩
  · obtain ⟨t, hexec, hx, hflag, hrest⟩ := resultThenFlag_writes s x (s.readV y <<< 1) (flagShl (s.readV y))
    exact ⟨t, hexec, fun h => hx h ▸ byte_shl_one_toNat _, hflag ▸ (flagByte_toNat _).trans (flagShl_toNat _), hrest⟩

end Sys2Proof.Machine
end

section
/-! Sprite draw (spec/44_draw.md): what a draw leaves in each cell, in VF and in dirty, the colour it draws in, and the
second draw that erases the first. -/

namespace Sys2Proof.Machine

/-! ## One draw -/

/-- A framebuffer replaced by one that differs from it at most in the cells that may be written. -/
theorem Frame.writeFb_cells {W : Loc → Prop} {s u : State} (h : Frame W s u) {fb : Framebuffer}
    (hfb : ∀ c, ¬ W (.fb c) → fb.cell c = u.fb.cell c) : Frame W s (u.writeFb fb) := by
  refine h.trans fun l hl => ?_
  cases l with
  | fb c => exact hfb c hl
  | _ => rfl

section draw
variable {x y : RegIdx} {n : Nibble} {s t : State} {c : CellIdx}

theorem exec_drw_completes (hin : s.i.toNat + n.toNat ≤ 4096) : ∃ t, exec (.drw x y n) s = .next t :=
  ⟨_, exec_drw_eq_next.2 ⟨hin, rfl⟩⟩

theorem exec_drw_pc (h : exec (.drw x y n) s = .next t) : t.pc = s.pc + 2 := by
  obtain ⟨-, rfl⟩ := exec_drw_eq_next.1 h
  rfl

/-- A covered cell is toggled (R153). -/
theorem exec_drw_cell_of_covers (hfb : s.fb.wf = true) (h : exec (.drw x y n) s = .next t)
    (hc : s.SpriteCovers x y n c) : t.fb.cell c = if s.fb.cell c = 0 then drawColour s.params s.ov s.i else 0 := by
  obtain ⟨-, rfl⟩ := exec_drw_eq_next.1 h
  exact (drawCells_cell hfb _ (s.drawTargets_nodup x y n) c).trans (if_pos (State.spriteCovers_iff.1 hc))

theorem exec_drw_cell_of_not_covers (hfb : s.fb.wf = true) (h : exec (.drw x y n) s = .next t)
    (hc : ¬ s.SpriteCovers x y n c) : t.fb.cell c = s.fb.cell c := by
  obtain ⟨-, rfl⟩ := exec_drw_eq_next.1 h
  exact (drawCells_cell hfb _ (s.drawTargets_nodup x y n) c).trans (if_neg (State.spriteCovers_iff.not.1 hc))

/-- A draw writes the covered cells, VF, PC and its outputs alone. -/
theorem exec_drw_frame (hfb : s.fb.wf = true) (h : exec (.drw x y n) s = .next t) :
    Frame (fun l => (∃ c, s.SpriteCovers x y n c ∧ l = .fb c) ∨ l = .v 15 ∨ l = .pc ∨ l = .out) s t := by
  have hcell {c : CellIdx} := exec_drw_cell_of_not_covers (c := c) hfb h
  obtain ⟨-, rfl⟩ := exec_drw_eq_next.1 h
  exact (((Frame.refl _ s).writeFb_cells fun c hc => hcell fun hcov => hc (.inl ⟨c, hcov, rfl⟩)).setFlag
    (.inr (.inl rfl)) _).advance_emit (.inr (.inr (.inl rfl))) (.inr (.inr (.inr rfl))) 2 _

/-- The collision: a covered cell was lit. -/
theorem State.drawOutcome_hit (hfb : s.fb.wf = true) :
    (s.drawOutcome x y n).2 = true ↔ ∃ c, s.SpriteCovers x y n c ∧ s.fb.cell c ≠ 0 := by
  simp only [State.spriteCovers_iff]
  exact drawCells_hit hfb _ (s.drawTargets_nodup x y n)

theorem exec_drw_readV_15 (h : exec (.drw x y n) s = .next t) :
    t.readV 15 = if (s.drawOutcome x y n).2 then 1 else 0 := by
  obtain ⟨-, rfl⟩ := exec_drw_eq_next.1 h
  exact State.writeV_readV_same _ 15 _

/-- VF is 1 exactly after a collision (R150). -/
theorem exec_drw_flag_one (hfb : s.fb.wf = true) (h : exec (.drw x y n) s = .next t) :
    t.readV 15 = 1 ↔ ∃ c, s.SpriteCovers x y n c ∧ s.fb.cell c ≠ 0 := by
  rw [exec_drw_readV_15 h, ← State.drawOutcome_hit hfb]
  cases (s.drawOutcome x y n).2 <;> decide

theorem exec_drw_flag_zero (hfb : s.fb.wf = true) (h : exec (.drw x y n) s = .next t) :
    t.readV 15 = 0 ↔ ∀ c, s.SpriteCovers x y n c → s.fb.cell c = 0 := by
  have hflag : t.readV 15 = 0 ↔ ¬ t.readV 15 = 1 := by
    rw [exec_drw_readV_15 h]
    cases (s.drawOutcome x y n).2 <;> decide
  rw [hflag, exec_drw_flag_one hfb h]
  simp only [not_exists, not_and, not_not]

/-- Dirty is true where a bit of the sprite is 1 (D18). -/
theorem exec_drw_returned_true (h : exec (.drw x y n) s = .next t) (hc : s.SpriteCovers x y n c) :
    t.Returned .cont true := by
  obtain ⟨-, rfl⟩ := exec_drw_eq_next.1 h
  rw [List.isEmpty_eq_false_iff_exists_mem.2 ⟨c, State.spriteCovers_iff.1 hc⟩]
  exact State.returned_emit _ _ _

theorem exec_drw_returned_false (h : exec (.drw x y n) s = .next t) (hnone : ∀ c, ¬ s.SpriteCovers x y n c) :
    t.Returned .cont false := by
  have hempty : s.drawTargets x y n = [] :=
    List.eq_nil_iff_forall_not_mem.2 fun c hc => hnone c (State.spriteCovers_iff.2 hc)
  obtain ⟨-, rfl⟩ := exec_drw_eq_next.1 h
  rw [hempty]
  exact State.returned_emit _ _ _

end draw

/-- Settles O27: the sprite lands on each cell it covers once, so each is toggled once. -/
theorem drawTogglesTheCellsItCovers : Obligations.DrawTogglesTheCellsItCovers := by
  intro x y n s hfb hin
  obtain ⟨t, h⟩ := exec_drw_completes (x := x) (y := y) hin
  exact ⟨t, h, fun _ => exec_drw_cell_of_covers hfb h, (exec_drw_flag_one hfb h).2, (exec_drw_flag_zero hfb h).2,
    fun ⟨_, hc⟩ => exec_drw_returned_true h hc, exec_drw_returned_false h, exec_drw_pc h, exec_drw_frame hfb h⟩

/-! ## The colour (R151) -/

/-- The packed colour as a number (D15). -/
theorem OverlayRec.colour_toNat (k : OverlayRec) :
    k.colour.toNat = k.r.toNat * 65536 + k.g.toNat * 256 + k.b.toNat := by
  rw [OverlayRec.colour, append_toNat, append_toNat]
  omega

section colour
variable {p : Config.Params} {k0 k1 : OverlayRec} {ov rest : List OverlayRec} {i0 : Word}

theorem drawColour_of_length_lt_two (h : ov.length < 2) : drawColour p ov i0 = p.defaultFg := by
  match ov, h with
  | [], _ => rfl
  | [_], _ => rfl

/-- The first match in the records from index 2 on gives the colour (D14). -/
theorem drawColour_of_first_match {k : Nat} (hk : k < rest.length) (haddr : rest[k].addr = i0)
    (hfirst : ∀ (j : Nat) (hj : j < k), rest[j].addr ≠ i0) : drawColour p (k0 :: k1 :: rest) i0 = rest[k].colour := by
  have hfind : rest.find? (fun r => r.addr == i0) = some rest[k] :=
    List.find?_eq_some_iff_getElem.2 ⟨beq_iff_eq.2 haddr, k, hk, rfl, fun j hj => by simpa using hfirst j hj⟩
  rw [drawColour, hfind, Option.getD_some]

theorem drawColour_of_no_match (h : ∀ r ∈ rest, r.addr ≠ i0) : drawColour p (k0 :: k1 :: rest) i0 = k1.colour := by
  have hfind : rest.find? (fun r => r.addr == i0) = none :=
    List.find?_eq_none.2 fun r hr => by simpa using h r hr
  rw [drawColour, hfind, Option.getD_none]

end colour

/-- Settles O28: index `k + 2` of the overlay is index `k` of the records that are searched. -/
theorem drawColourIsTheFirstMatchingRecord : Obligations.DrawColourIsTheFirstMatchingRecord := by
  intro p ov i0
  refine ⟨drawColour_of_length_lt_two, ?_⟩
  match ov with
  | [] | [_] => exact ⟨fun k hk h2 => absurd (h2.trans_lt hk) (by simp), fun h => absurd h (by simp)⟩
  | k0 :: k1 :: rest =>
    constructor
    · rintro (_ | _ | k) hk h2 haddr hfirst
      · omega
      · omega
      · have hk' : k < rest.length := by simpa using hk
        rw [drawColour_of_first_match hk' haddr fun j hj => hfirst (j + 2) (by omega) (by omega)]
        exact OverlayRec.colour_toNat rest[k]
    · intro _ hnone
      have hmiss : ∀ r ∈ rest, r.addr ≠ i0 := by
        intro r hr
        obtain ⟨k, hk, rfl⟩ := List.getElem_of_mem hr
        exact hnone (k + 2) (by simpa using hk) (by omega)
      rw [drawColour_of_no_match hmiss]
      exact OverlayRec.colour_toNat k1

/-! ## The same sprite twice (S4) -/

theorem lit_congr {a b : Pixel} (h : a = 0 ↔ b = 0) : lit a = lit b := by
  rw [lit, lit, Bool.eq_iff_iff, bne_iff_ne, bne_iff_ne]
  exact h.not

section twice
variable {x y : RegIdx} {n : Nibble} {s t u : State} {c : CellIdx}

theorem State.spriteCovers_congr (hi : u.i = s.i) (hx : u.readV x = s.readV x) (hy : u.readV y = s.readV y)
    (hmem : ∀ a, u.readByte a = s.readByte a) : u.SpriteCovers x y n c ↔ s.SpriteCovers x y n c := by
  simp only [State.SpriteCovers, hi, hx, hy, hmem]

/-- A draw in a lit colour turns each covered cell from off to lit or from lit to off. -/
theorem exec_drw_off_iff_of_covers (hfb : s.fb.wf = true) (hlit : drawColour s.params s.ov s.i ≠ 0)
    (h : exec (.drw x y n) s = .next t) (hc : s.SpriteCovers x y n c) : t.fb.cell c = 0 ↔ s.fb.cell c ≠ 0 := by
  rw [exec_drw_cell_of_covers hfb h hc]
  by_cases hoff : s.fb.cell c = 0
  · rw [if_pos hoff]
    exact iff_of_false hlit (not_not.2 hoff)
  · rw [if_neg hoff]
    exact iff_of_true rfl hoff

/-- On an all-off framebuffer a draw in a lit colour lights exactly the covered cells. -/
theorem exec_drw_off_iff_not_covers (hfb : s.fb.wf = true) (hlit : drawColour s.params s.ov s.i ≠ 0)
    (h : exec (.drw x y n) s = .next t) (hoff : ∀ c, s.fb.cell c = 0) :
    t.fb.cell c = 0 ↔ ¬ s.SpriteCovers x y n c := by
  by_cases hc : s.SpriteCovers x y n c
  · exact iff_of_false (fun ht => (exec_drw_off_iff_of_covers hfb hlit h hc).1 ht (hoff c)) (not_not.2 hc)
  · exact iff_of_true ((exec_drw_cell_of_not_covers hfb h hc).trans (hoff c)) hc

end twice

/-- Settles O29: between the two draws a covered cell is lit exactly if it was off before them, which decides what the
second draw does to it and whether it collides there. -/
theorem drawingTwiceErases : Obligations.DrawingTwiceErases := by
  intro x y n s t u hfb hlit h hut hi hx hy hp hov hmem
  have hufb : u.fb.wf = true := hut ▸ exec_fbWf hfb h
  have hcov {c : CellIdx} : u.SpriteCovers x y n c ↔ s.SpriteCovers x y n c := State.spriteCovers_congr hi hx hy hmem
  have hmid {c : CellIdx} (hc : s.SpriteCovers x y n c) : u.fb.cell c = 0 ↔ s.fb.cell c ≠ 0 :=
    hut ▸ exec_drw_off_iff_of_covers hfb hlit h hc
  obtain ⟨w, hw⟩ := exec_drw_completes (x := x) (y := y) (s := u) (hi ▸ (exec_drw_eq_next.1 h).1)
  have houtside : ∀ c, ¬ s.SpriteCovers x y n c → w.fb.cell c = s.fb.cell c := by
    intro c hc
    rw [exec_drw_cell_of_not_covers hufb hw (hcov.not.2 hc), hut, exec_drw_cell_of_not_covers hfb h hc]
  have hcovered : ∀ c, s.SpriteCovers x y n c →
      w.fb.cell c = if s.fb.cell c = 0 then 0 else drawColour s.params s.ov s.i := by
    intro c hc
    rw [exec_drw_cell_of_covers hufb hw (hcov.2 hc), hp, hov, hi]
    simp only [hmid hc, ne_eq, ite_not]
  have hrestored {c : CellIdx} : w.fb.cell c = 0 ↔ s.fb.cell c = 0 := by
    by_cases hc : s.SpriteCovers x y n c
    · have hulit : drawColour u.params u.ov u.i ≠ 0 := by rwa [hp, hov, hi]
      exact (exec_drw_off_iff_of_covers hufb hulit hw (hcov.2 hc)).trans ((hmid hc).not.trans not_not)
    · rw [houtside c hc]
  have hone : w.readV 15 = 1 ↔ ∃ c, s.SpriteCovers x y n c ∧ s.fb.cell c = 0 := by
    simp only [exec_drw_flag_one hufb hw, hcov]
    exact exists_congr fun c => and_congr_right fun hc => (hmid hc).not.trans not_not
  have hzero : w.readV 15 = 0 ↔ ∀ c, s.SpriteCovers x y n c → s.fb.cell c ≠ 0 := by
    simp only [exec_drw_flag_zero hufb hw, hcov]
    exact forall_congr' fun c => forall_congr' hmid
  refine ⟨w, hw, fun _ => lit_congr hrestored, houtside, hcovered, hone, hzero, fun hoff => ?_⟩
  have hlights {c : CellIdx} : t.fb.cell c = 0 ↔ ¬ s.SpriteCovers x y n c :=
    exec_drw_off_iff_not_covers hfb hlit h hoff
  refine ⟨fun c => hrestored.2 (hoff c), ?_, ?_⟩
  · simp only [hone, hoff, hlights, and_true, ne_eq, not_not]
  · simp only [hzero, hoff, hlights, ne_eq, not_true_eq_false, imp_false]

end Sys2Proof.Machine
end

section
/-! The keypad (spec/45_keypad.md): the two skips on a key, the key wait, and a program that stays on it while no key is
down. -/

namespace Sys2Proof.Machine

/-! ## Skips on a key -/

/-- The key a byte selects is the one at its low four bits (R160). -/
theorem State.keyDown_eq {s : State} {vx : Byte} {k : RegIdx} (hk : k.val = vx.toNat % 16) :
    s.keyDown vx = s.key[k] := by
  obtain rfl : k = keyIndex vx := Fin.ext (hk.trans (keyIndex_val vx).symm)
  rfl

/-- Settles O30: both are `completeSkip`, the one on the selected key's flag, the other on its negation. -/
theorem keySkipsTestTheSelectedKey : Obligations.KeySkipsTestTheSelectedKey := by
  intro x k s hk
  have hdown : s.keyDown (s.readV x) = s.key[k] := State.keyDown_eq hk
  constructor
  · exact completeSkip_advances (by rw [hdown])
  · exact completeSkip_advances (by rw [hdown, Bool.not_eq_true'])

/-! ## The key wait -/

/-- With no key down the key wait writes its outputs alone, so PC stays on it (R162). -/
theorem exec_ldVxK_of_no_key {s : State} (hkey : ∀ k : RegIdx, s.key[k] = false) (x : RegIdx) :
    exec (.ldVxK x) s = .next (s.emit .cont false) :=
  exec_ldVxK_eq_next.2 (.inr ⟨State.firstKey_eq_none.2 hkey, rfl⟩)

/-- Settles O31: the scan finds the lowest pressed key or none; the first ends like a load of its number into Vx. -/
theorem keyWaitTakesTheLowestPressedKey : Obligations.KeyWaitTakesTheLowestPressedKey := by
  intro x s
  constructor
  · intro k hdown hlower
    have hfirst : s.firstKey = some k := State.firstKey_eq_some.2 ⟨hdown, hlower⟩
    obtain ⟨t, hload, hx, hrest⟩ := completeNext_writeV s x (BitVec.ofNat 8 k.val)
    have hval : (t.readV x).toNat = k.val := by
      rw [hx, BitVec.toNat_ofNat]
      omega
    exact ⟨t, exec_ldVxK_eq_next.2 (.inl ⟨k, hfirst, completeNext_eq_next.1 hload⟩), hval, hrest⟩
  · intro hkey
    exact ⟨_, exec_ldVxK_of_no_key hkey x, State.returned_emit _ _ _, (Frame.refl (· = .out) s).emit rfl _ _⟩

/-! ## A program that waits for a key -/

theorem tick_frame (s : State) : Frame (fun l => l = .dt ∨ l = .st) s (tick s) :=
  ((Frame.refl _ s).writeDt (.inl rfl) _).writeSt (.inr rfl) _

theorem transact_step_of_next {s t : State} (h : step s = .next t) :
    transact .step s = .next (t, .stepped t.out.result t.out.dirty) := by
  rw [transact, stepTransaction, h]

/-- The next step executes the key wait, and no key is down. -/
structure State.WaitsForKey (s : State) (x : RegIdx) : Prop where
  fetches : ∃ w, s.fetch = some w ∧ decode w = .ldVxK x
  noKey   : ∀ k : RegIdx, s.key[k] = false

/-- What a step of a waiting program or a tick may change. -/
def isTimerOrOutput (l : Loc) : Prop := l = .dt ∨ l = .st ∨ l = .out

section waiting
variable {s t : State} {x : RegIdx}

theorem State.WaitsForKey.step_eq (hs : s.WaitsForKey x) : step s = exec (.ldVxK x) s := by
  obtain ⟨w, hw, hd⟩ := hs.fetches
  rw [step_of_fetch hw, hd]

/-- The fetch reads PC and memory, so a change to timers and outputs keeps the wait: the same word, the same keys. -/
theorem State.WaitsForKey.of_frame (hs : s.WaitsForKey x) (h : Frame isTimerOrOutput s t) : t.WaitsForKey x where
  fetches := by
    have hpc : t.pc = s.pc := h .pc (by simp [isTimerOrOutput])
    have hmem : ∀ a, t.readByte a = s.readByte a := fun a => h (.mem a) (by simp [isTimerOrOutput])
    rw [State.fetch_congr hpc hmem]
    exact hs.fetches
  noKey k := (h (.key k) (by simp [isTimerOrOutput])).trans (hs.noKey k)

theorem State.WaitsForKey.transact_frame (hs : s.WaitsForKey x) {tx : Transaction} (htx : tx = .step ∨ tx = .tick) :
    ∃ u r, transact tx s = .next (u, r) ∧ Frame isTimerOrOutput s u := by
  rcases htx with rfl | rfl
  · have hstep : step s = .next (s.emit .cont false) := hs.step_eq.trans (exec_ldVxK_of_no_key hs.noKey x)
    exact ⟨_, _, transact_step_of_next hstep, (Frame.refl _ s).emit (.inr (.inr rfl)) _ _⟩
  · exact ⟨_, _, rfl, (tick_frame s).mono fun _ => Or.imp_right .inl⟩

theorem State.WaitsForKey.transactAll_frame (hs : s.WaitsForKey x) {ts : List Transaction}
    (hts : ∀ tx ∈ ts, tx = .step ∨ tx = .tick) : ∃ u, transactAll ts s = .next u ∧ Frame isTimerOrOutput s u := by
  induction ts generalizing s with
  | nil => exact ⟨s, rfl, Frame.refl _ s⟩
  | cons tx ts ih =>
    obtain ⟨htx, hrest⟩ := List.forall_mem_cons.1 hts
    obtain ⟨u, r, hu, hsu⟩ := hs.transact_frame htx
    obtain ⟨v, hv, huv⟩ := ih (hs.of_frame hsu) hrest
    refine ⟨v, ?_, hsu.trans huv⟩
    rw [transactAll, hu]
    exact hv

end waiting

/-- Settles O32, by induction on the transactions: each changes timers and outputs alone, which keeps the program
waiting. -/
theorem keyWaitHoldsUntilAKeyIsPressed : Obligations.KeyWaitHoldsUntilAKeyIsPressed := by
  intro x w s ts hw hd hkey hts
  have hs : s.WaitsForKey x := ⟨⟨w, hw, hd⟩, hkey⟩
  obtain ⟨t, ht, hframe⟩ := hs.transactAll_frame hts
  exact ⟨t, ht, (hs.of_frame hframe).step_eq, hframe⟩

end Sys2Proof.Machine
end

section
/-! Timer, index and memory-block instructions (spec/46_timer_index_memory.md): the copies to and from the timers, the
two writers of I, and the block transfers, which either lie wholly in memory or fault. -/

namespace Sys2Proof.Machine

/-! ## Timers and the index register -/

/-- Settles O33: each writes the one location it copies to, and falls through. -/
theorem timerMovesCopyTheRegister : Obligations.TimerMovesCopyTheRegister := by
  intro x s
  refine ⟨completeNext_writeV s x s.dt, ?_, ?_⟩
  · exact ⟨_, exec_ldDt_eq_next.2 rfl, rfl, rfl, State.returned_emit _ _ _,
      ((Frame.refl _ s).writeDt (.inl rfl) _).advance_emit (.inr (.inl rfl)) (.inr (.inr rfl)) 2 false⟩
  · exact ⟨_, exec_ldSt_eq_next.2 rfl, rfl, rfl, State.returned_emit _ _ _,
      ((Frame.refl _ s).writeSt (.inl rfl) _).advance_emit (.inr (.inl rfl)) (.inr (.inr rfl)) 2 false⟩

/-- Settles O34: I is a 16-bit word, and Vx is added to it zero-extended. -/
theorem addIWrapsAtSixteenBits : Obligations.AddIWrapsAtSixteenBits := by
  intro x s
  obtain ⟨t, hexec, hi, hrest⟩ := completeNext_writeI s (s.i + extendByte (s.readV x))
  have hsum : t.i.toNat = (s.i.toNat + (s.readV x).toNat) % 65536 := by
    rw [hi, BitVec.toNat_add, extendByte_toNat]
  exact ⟨t, hexec, hsum, hrest⟩

/-- Settles O35: five times a byte fits in 16 bits, so the product does not wrap. -/
theorem glyphAddressIsFiveTimesVx : Obligations.GlyphAddressIsFiveTimesVx := by
  intro x s
  obtain ⟨t, hexec, hi, hrest⟩ := completeNext_writeI s (glyphAddr (s.readV x))
  exact ⟨t, hexec, hi ▸ glyphAddr_toNat _, hrest⟩

/-! ## Block transfers -/

/-- A block transfer that would leave memory faults before it moves a byte (R221). -/
theorem fault_of_not_inMemory {a n : Nat} (h : 4096 < a + n) (o : Host.Outcome State Fault Refusal) :
    (if inMemory a n then o else raise .outOfBounds) = .fault .outOfBounds :=
  if_neg (by rw [inMemory_iff]; omega)

/-- A block of bytes stored in memory, where every byte of it may be written. -/
theorem Frame.storeBytes_block {W : Loc → Prop} {s u : State} (h : Frame W s u) (hm : u.mem.wf u.params = true) {a : Nat}
    {bs : List Byte} (ha : a + bs.length ≤ 4096) (hw : ∀ q, a ≤ q → q < a + bs.length → W (.mem q)) :
    Frame W s (u.storeBytes a bs) := by
  refine h.trans fun l hl => ?_
  cases l with
  | mem q => exact (u.storeBytes_readByte hm a bs ha q).trans (dif_neg fun hq => hl (hw q hq.1 hq.2))
  | _ => simp [Loc.same]

/-- Everything an instruction does that stores a block of bytes, `a + n` its last address, and falls through. -/
theorem completeNext_storeBytes {s : State} (hm : s.mem.wf s.params = true) {a n : Nat} {bs : List Byte}
    (hlen : bs.length = n + 1) (hin : a + n < 4096) :
    ∃ t, completeNext (s.storeBytes a bs) = .next t ∧
      (∀ (k : Nat) (hk : k < bs.length), t.readByte (a + k) = bs[k]) ∧ t.pc = s.pc + 2 ∧ t.Returned .cont false ∧
      Frame (fun l => (∃ q, a ≤ q ∧ q ≤ a + n ∧ l = .mem q) ∨ l = .pc ∨ l = .out) s t := by
  have ha : a + bs.length ≤ 4096 := by omega
  refine ⟨_, completeNext_eq_next.2 rfl, fun k hk => ?_, by simp, State.returned_emit _ _ _, ?_⟩
  · rw [State.emit_readByte, State.advance_readByte, s.storeBytes_readByte hm a bs ha, dif_pos (by omega)]
    simp
  · exact ((Frame.refl _ s).storeBytes_block hm ha fun q hlo hhi => .inl ⟨q, hlo, by omega, rfl⟩).advance_emit
      (.inr (.inl rfl)) (.inr (.inr rfl)) 2 false

/-- A number below 256 survives being stored in a byte. -/
theorem byte_ofNat_toNat {d : Nat} (h : d < 256) : (BitVec.ofNat 8 d).toNat = d := by
  rw [BitVec.toNat_ofNat, Nat.mod_eq_of_lt h]

/-- Settles O36: the bytes stored are the digits, each below 256 as a digit of a byte is. -/
theorem bcdStoresThreeDigits : Obligations.BcdStoresThreeDigits := by
  intro x s hm
  refine ⟨fun hin => ?_, fun hout => fault_of_not_inMemory (by omega) _⟩
  have hv := (s.readV x).isLt
  obtain ⟨t, hstore, hdigit, hrest⟩ := completeNext_storeBytes hm (bs := bcdDigits (s.readV x)) rfl hin
  have hexec : exec (.ldB x) s = .next t := exec_ldB_eq_next.2 ⟨by omega, completeNext_eq_next.1 hstore⟩
  have hhundreds : (t.readByte s.i.toNat).toNat = (s.readV x).toNat / 100 :=
    (congrArg BitVec.toNat (hdigit 0 (by simp [bcdDigits]))).trans (byte_ofNat_toNat (by omega))
  have htens : (t.readByte (s.i.toNat + 1)).toNat = (s.readV x).toNat / 10 % 10 :=
    (congrArg BitVec.toNat (hdigit 1 (by simp [bcdDigits]))).trans (byte_ofNat_toNat (by omega))
  have hunits : (t.readByte (s.i.toNat + 2)).toNat = (s.readV x).toNat % 10 :=
    (congrArg BitVec.toNat (hdigit 2 (by simp [bcdDigits]))).trans (byte_ofNat_toNat (by omega))
  exact ⟨t, hexec, hhundreds, htens, hunits, hrest⟩

/-- Settles O37: the block stored is V0..Vx. -/
theorem storeWritesTheRegisterBlock : Obligations.StoreWritesTheRegisterBlock := by
  intro x s hm
  refine ⟨fun hin => ?_, fun hout => fault_of_not_inMemory (by omega) _⟩
  obtain ⟨t, hstore, -, hrest⟩ := completeNext_storeBytes hm (s.regBlock_length x) hin
  have hexec : exec (.storeRegs x) s = .next t := exec_storeRegs_eq_next.2 ⟨by omega, completeNext_eq_next.1 hstore⟩
  exact ⟨t, hexec, fun k hk => exec_storeRegs_readByte hm hexec hk, hrest⟩

/-- Fx65 loads V0..Vx from the bytes from I on (R177). -/
theorem exec_loadRegs_readV {x k : RegIdx} {s t : State} (h : exec (.loadRegs x) s = .next t) (hk : k ≤ x) :
    t.readV k = s.readByte (s.i.toNat + k.val) := by
  obtain ⟨-, rfl⟩ := exec_loadRegs_eq_next.1 h
  have hkx : k.val ≤ x.val := hk
  rw [State.emit_readV, State.advance_readV, State.writeRegs_readV, dif_pos (by simp; omega), State.loadBytes_getElem]
  simp

/-- Settles O38: the block loaded has x + 1 bytes, so no register above Vx is written. -/
theorem loadReadsTheRegisterBlock : Obligations.LoadReadsTheRegisterBlock := by
  intro x s
  refine ⟨fun hin => ?_, fun hout => fault_of_not_inMemory (by omega) _⟩
  have hexec := (exec_loadRegs_eq_next (x := x) (s := s)).2 ⟨by omega, rfl⟩
  have hregs : ∀ r : RegIdx, r.val < (s.loadBytes s.i.toNat (x.val + 1)).length → r ≤ x := by
    intro r hr
    rw [State.loadBytes_length] at hr
    exact Fin.le_def.2 (by omega)
  exact ⟨_, hexec, fun k hk => exec_loadRegs_readV hexec hk, by simp, State.returned_emit _ _ _,
    ((Frame.refl _ s).writeRegs _ fun r hr => .inl ⟨r, hregs r hr, rfl⟩).advance_emit (.inr (.inl rfl))
      (.inr (.inr rfl)) 2 false⟩

/-- Settles O39: the load reads, from the same I, the bytes the store left, and its frame keeps the registers above
Vx. -/
theorem storeThenLoadRestoresRegisters : Obligations.StoreThenLoadRestoresRegisters := by
  intro x s t u hm h hmem hi
  have hin : u.i.toNat + x.val < 4096 := by
    have hstored := (exec_storeRegs_eq_next.1 h).1
    rw [hi]
    omega
  obtain ⟨w, hw, hload, -, -, hframe⟩ := (loadReadsTheRegisterBlock x u).1 hin
  refine ⟨w, hw, fun k hk => ?_, fun k hk => hframe (.v k) (by simpa using hk)⟩
  rw [hload k hk, hmem, hi]
  exact exec_storeRegs_readByte hm h hk

end Sys2Proof.Machine
end

section
/-! One step, and the run of a host (spec/50_step_and_interfaces.md): the fetched instruction is executed, dirty reports
every change of a cell, a key poll replaces every flag, and a run stops at its first step that does not return
`Continue`. -/

namespace Sys2Proof.Machine

/-! ## The step -/

/-- Settles O1: the two clauses are the two cases of the fetch. -/
theorem stepRunsTheFetchedInstruction : Obligations.StepRunsTheFetchedInstruction := by
  intro s
  rcases s.fetch_cases with ⟨hin, w, hw, hword⟩ | ⟨hout, hnone⟩
  · exact ⟨fun _ => ⟨w, hword, step_of_fetch hw⟩, fun h => by omega⟩
  · exact ⟨fun h => by omega, fun _ => by rw [step, hnone, raise]⟩

/-! ## The dirty flag (R205) -/

section dirty
variable {i : Instr} {s t : State}

/-- A draw is dirty exactly when a bit of the sprite is 1 (D18). -/
theorem exec_drw_dirty {x y : RegIdx} {n : Nibble} (h : exec (.drw x y n) s = .next t) :
    t.out.dirty = true ↔ ∃ c, s.SpriteCovers x y n c := by
  constructor
  · intro hd
    by_contra hnone
    have hret : t.out = ⟨.cont, false⟩ := exec_drw_returned_false h (not_exists.1 hnone)
    simp [hret] at hd
  · rintro ⟨c, hc⟩
    have hret : t.out = ⟨.cont, true⟩ := exec_drw_returned_true h hc
    rw [hret]

/-- No instruction but CLS and the draws reports a dirty frame. -/
theorem exec_dirty_of_ne (hcls : i ≠ .cls) (hdrw : ∀ x y n, i ≠ .drw x y n) (h : exec i s = .next t) :
    t.out.dirty = false := by
  cases i
  case cls => exact absurd rfl hcls
  case drw x y n => exact absurd rfl (hdrw x y n)
  case call nnn => obtain ⟨u, -, rfl⟩ := exec_call_eq_next.1 h; rfl
  case ret => obtain ⟨w, u, -, rfl⟩ := exec_ret_eq_next.1 h; rfl
  case ldVxK x => obtain ⟨k, -, rfl⟩ | ⟨-, rfl⟩ := exec_ldVxK_eq_next.1 h <;> rfl
  case ldB | storeRegs | loadRegs =>
    simp only [exec_ldB_eq_next, exec_storeRegs_eq_next, exec_loadRegs_eq_next] at h
    obtain ⟨-, rfl⟩ := h
    rfl
  all_goals
    simp at h
    subst h
    rfl

theorem exec_dirty_iff (h : exec i s = .next t) :
    t.out.dirty = true ↔ i = .cls ∨ ∃ x y n, i = .drw x y n ∧ ∃ c, s.SpriteCovers x y n c := by
  by_cases hcls : i = .cls
  · subst hcls
    obtain rfl := exec_cls_eq_next.1 h
    simp
  by_cases hdrw : ∃ x y n, i = .drw x y n
  · obtain ⟨x, y, n, rfl⟩ := hdrw
    simp [exec_drw_dirty h]
  · push Not at hdrw
    simp [exec_dirty_of_ne hcls hdrw h, hcls, hdrw]

/-- Settles O47: only CLS and the draws may write a cell, CLS is always dirty, and a draw that is not covers no cell. -/
theorem dirtyReportsEveryFramebufferChange : Obligations.DirtyReportsEveryFramebufferChange := by
  intro i s t hfb h
  refine ⟨exec_dirty_iff h, fun hd c => ?_⟩
  have hclean : ¬ (i = .cls ∨ ∃ x y n, i = .drw x y n ∧ ∃ c, s.SpriteCovers x y n c) := by
    rw [← exec_dirty_iff h, hd]
    exact Bool.false_ne_true
  by_cases hdrw : ∃ x y n, i = .drw x y n
  · obtain ⟨x, y, n, rfl⟩ := hdrw
    exact exec_drw_cell_of_not_covers hfb h fun hc => hclean (.inr ⟨x, y, n, rfl, c, hc⟩)
  · exact exec_frame h (.fb c) fun hw => hw.elim (fun hcls => hclean (.inl hcls)) hdrw

end dirty

/-! ## The key poll (R209) -/

/-- Settles O54: the vector becomes KEY whole. -/
theorem setKeysReplacesAllFlags : Obligations.SetKeysReplacesAllFlags := by
  intro k s
  refine ⟨setKeys k s, rfl, fun _ => rfl, fun l hl => ?_⟩
  cases l with
  | key j => exact absurd ⟨j, rfl⟩ hl
  | _ => rfl

/-! ## Where a run stands (R211) -/

section run
variable {ts : List Transaction} {tx : Transaction} {s t u : State}

/-- Everything one transaction can do to a run: the run goes on in the next state, which after a step means that it
returned `Continue`; a step ends it or faults it; or the transaction is refused. -/
theorem runHost_cons_cases (tx : Transaction) (s : State) :
    (∃ t r, transact tx s = .next (t, r) ∧ (tx = .step → step s = .next t ∧ t.out.result = .cont) ∧
        ∀ ts, runHost (tx :: ts) s = runHost ts t) ∨
      (tx = .step ∧ ∃ t, step s = .next t ∧ t.out.result = .halt ∧ ∀ ts, runHost (tx :: ts) s = .ended t) ∨
      (tx = .step ∧ ∃ f, step s = .fault f ∧ ∀ ts, runHost (tx :: ts) s = .faulted f) ∨
      ∃ r, transact tx s = .refused r ∧ ∀ ts, runHost (tx :: ts) s = .refused r := by
  cases tx with
  | step =>
    cases hstep : step s with
    | next t =>
      rcases step_result hstep with hr | hr
      · exact .inl ⟨t, _, transact_step_of_next hstep, fun _ => ⟨rfl, hr⟩, fun ts => by simp [runHost_step, hstep, hr]⟩
      · exact .inr (.inl ⟨rfl, t, rfl, hr, fun ts => by simp [runHost_step, hstep, hr]⟩)
    | fault f => exact .inr (.inr (.inl ⟨rfl, f, rfl, fun ts => by rw [runHost_step, hstep]⟩))
    | refused r => exact absurd hstep step_ne_refused
  | load bytes overlay =>
    rcases loadTransaction_cases bytes overlay s with ⟨-, h⟩ | ⟨-, -, h⟩ | ⟨-, -, h⟩
    · exact .inr (.inr (.inr ⟨_, h, fun ts => by rw [runHost, transact, h]⟩))
    · exact .inl ⟨_, _, h, nofun, fun ts => by rw [runHost, transact, h]; rfl⟩
    · exact .inl ⟨_, _, h, nofun, fun ts => by rw [runHost, transact, h]; rfl⟩
  | tick => exact .inl ⟨_, _, rfl, nofun, fun _ => rfl⟩
  | setKeys k => exact .inl ⟨_, _, rfl, nofun, fun _ => rfl⟩
  | fbRead c => exact .inl ⟨_, _, rfl, nofun, fun _ => rfl⟩

/-- A run is still going, was refused a transaction, or stopped at a step that returned `Halt` or a fault, before which
it was still going. -/
theorem runHost_cases (ts : List Transaction) (s : State) :
    (∃ u, runHost ts s = .running u) ∨ (∃ r, runHost ts s = .refused r) ∨
      ∃ pre post u, ts = pre ++ .step :: post ∧ runHost pre s = .running u ∧
        ((∃ t, step u = .next t ∧ t.out.result = .halt ∧ runHost ts s = .ended t) ∨
          ∃ f, step u = .fault f ∧ runHost ts s = .faulted f) := by
  induction ts generalizing s with
  | nil => exact .inl ⟨s, rfl⟩
  | cons tx ts ih =>
    rcases runHost_cons_cases tx s with ⟨t, r, -, -, hrun⟩ | ⟨rfl, t, hstep, ht, hrun⟩ | ⟨rfl, f, hstep, hrun⟩ |
      ⟨r, -, hrun⟩
    · rw [hrun]
      refine (ih t).imp_right (Or.imp_right ?_)
      rintro ⟨pre, post, u, rfl, hpre, hstop⟩
      exact ⟨tx :: pre, post, u, rfl, (hrun pre).trans hpre, hstop⟩
    · exact .inr (.inr ⟨[], ts, s, rfl, rfl, .inl ⟨t, hstep, ht, hrun ts⟩⟩)
    · exact .inr (.inr ⟨[], ts, s, rfl, rfl, .inr ⟨f, hstep, hrun ts⟩⟩)
    · exact .inr (.inl ⟨r, hrun ts⟩)

theorem runHost_eq_ended_iff : runHost ts s = .ended t ↔
    ∃ pre post u, ts = pre ++ .step :: post ∧ runHost pre s = .running u ∧ step u = .next t ∧ t.out.result = .halt := by
  constructor
  · intro h
    rcases runHost_cases ts s with ⟨u, e⟩ | ⟨r, e⟩ | ⟨pre, post, u, hts, hpre, ⟨v, hstep, hv, e⟩ | ⟨f, -, e⟩⟩ <;>
      rw [h] at e <;> cases e
    exact ⟨pre, post, u, hts, hpre, hstep, hv⟩
  · rintro ⟨pre, post, u, rfl, hpre, hstep, ht⟩
    simp [runHost_append, hpre, runHost_step, hstep, ht]

theorem runHost_eq_faulted_iff {f : Fault} : runHost ts s = .faulted f ↔
    ∃ pre post u, ts = pre ++ .step :: post ∧ runHost pre s = .running u ∧ step u = .fault f := by
  constructor
  · intro h
    rcases runHost_cases ts s with ⟨u, e⟩ | ⟨r, e⟩ | ⟨pre, post, u, hts, hpre, ⟨v, -, -, e⟩ | ⟨g, hstep, e⟩⟩ <;>
      rw [h] at e <;> cases e
    exact ⟨pre, post, u, hts, hpre, hstep⟩
  · rintro ⟨pre, post, u, rfl, hpre, hstep⟩
    simp [runHost_append, hpre, runHost_step, hstep]

/-- Every step among the transactions `ts` from `s` is reached and returns `Continue`. -/
def StepsContinue (ts : List Transaction) (s : State) : Prop :=
  ∀ pre post, ts = pre ++ .step :: post →
    ∃ w v, transactAll pre s = .next w ∧ step w = .next v ∧ v.out.result = .cont

theorem stepsContinue_nil (s : State) : StepsContinue [] s :=
  fun _ _ h => absurd h (by simp)

/-- A first step is reached at once. -/
theorem StepsContinue.first (h : StepsContinue (.step :: ts) s) : ∃ v, step s = .next v ∧ v.out.result = .cont := by
  obtain ⟨w, v, hw, hv⟩ := h [] ts rfl
  cases hw
  exact ⟨v, hv⟩

theorem stepsContinue_cons_iff {r : Reply} (htx : transact tx s = .next (t, r)) :
    StepsContinue (tx :: ts) s ↔
      (tx = .step → ∃ v, step s = .next v ∧ v.out.result = .cont) ∧ StepsContinue ts t := by
  have hall (pre : List Transaction) : transactAll (tx :: pre) s = transactAll pre t := by rw [transactAll, htx]
  constructor
  · refine fun h => ⟨fun e => (e ▸ h).first, fun pre post hts => ?_⟩
    rw [← hall]
    exact h (tx :: pre) post (congrArg (tx :: ·) hts)
  · rintro ⟨hfirst, hrest⟩ pre post hts
    rcases List.cons_eq_append_iff.1 hts with ⟨rfl, e⟩ | ⟨pre, rfl, e⟩
    · obtain ⟨v, hv⟩ := hfirst (List.cons.inj e).1.symm
      exact ⟨s, v, rfl, hv⟩
    · rw [hall]
      exact hrest pre post e

theorem runHost_eq_running_iff :
    runHost ts s = .running u ↔ transactAll ts s = .next u ∧ StepsContinue ts s := by
  induction ts generalizing s with
  | nil => simp [transactAll, stepsContinue_nil]
  | cons tx ts ih =>
    rcases runHost_cons_cases tx s with ⟨t, r, htx, hstep, hrun⟩ | ⟨rfl, t, hstep, ht, hrun⟩ | ⟨rfl, f, hstep, hrun⟩ |
      ⟨r, htx, hrun⟩
    · rw [hrun, ih, transactAll, htx, stepsContinue_cons_iff htx, and_iff_right fun e => ⟨t, hstep e⟩]
    · refine iff_of_false (by simp [hrun]) fun ⟨_, hsteps⟩ => ?_
      obtain ⟨v, hv, hcont⟩ := hsteps.first
      cases hstep.symm.trans hv
      cases ht.symm.trans hcont
    · refine iff_of_false (by simp [hrun]) fun ⟨_, hsteps⟩ => ?_
      obtain ⟨v, hv, -⟩ := hsteps.first
      cases hstep.symm.trans hv
    · exact iff_of_false (by simp [hrun]) (by simp [transactAll, htx])

/-- A step that returns `Halt` has executed HALT, which writes its outputs alone (log 4). -/
theorem step_halted_frame (hstep : step s = .next t) (ht : t.out.result = .halt) : Frame (· = .out) s t := by
  obtain ⟨w, -, -, rfl⟩ := step_halted hstep ht
  exact (Frame.refl (· = .out) s).emit rfl _ _

end run

/-- Settles O59, clause by clause; the step that ends a run keeps all but its outputs. -/
theorem runEndsAtTheFirstStepThatIsNotContinue : Obligations.RunEndsAtTheFirstStepThatIsNotContinue := by
  intro ts s
  refine ⟨fun t => ?_, fun f => runHost_eq_faulted_iff, fun u => runHost_eq_running_iff⟩
  rw [runHost_eq_ended_iff]
  constructor
  · rintro ⟨pre, post, u, hts, hpre, hstep, ht⟩
    exact ⟨pre, post, u, hts, hpre, hstep, ht, step_halted_frame hstep ht⟩
  · rintro ⟨pre, post, u, hts, hpre, hstep, ht, -⟩
    exact ⟨pre, post, u, hts, hpre, hstep, ht⟩

/-- Settles O58: the run ended at a step that returned `Halt`, which repeats, and what is issued after the end is no
part of a run. -/
theorem runsEndOnlyInHalt : Obligations.RunsEndOnlyInHalt := by
  intro n m s t h
  have hrun := (runsToHalt_eq_some_iff n s t).1 h
  obtain ⟨pre, post, u, -, -, hstep, ht⟩ := runHost_eq_ended_iff.1 hrun
  refine ⟨ht, haltChangesNothingAndRepeats.2 u t hstep ht, (runsToHalt_eq_some_iff (n + m) s t).2 ?_⟩
  rw [List.replicate_add, runHost_append, hrun]

end Sys2Proof.Machine
end

section
/-! Faults (spec/60_exceptions.md): the conditions of R221 to R223 as one table, under which and only under which an
instruction faults; that a fault leaves no trace, and repeats whatever the host polls; and the timers, which a tick
counts down (R233, R234). -/

namespace Sys2Proof.Machine

/-! ## When an instruction faults -/

/-- The faults of R221 to R223, a constructor per row: the instruction, the condition on the state, the fault. -/
inductive FaultsWith (s : State) : Instr → Fault → Prop where
  | ret (h : s.sp.val = 0) : FaultsWith s .ret .stackFault
  | call (nnn : Addr12) (h : s.sp.val = 16) : FaultsWith s (.call nnn) .stackFault
  | drw (x y : RegIdx) (n : Nibble) (h : 4096 < s.i.toNat + n.toNat) : FaultsWith s (.drw x y n) .outOfBounds
  | ldB (x : RegIdx) (h : 4096 ≤ s.i.toNat + 2) : FaultsWith s (.ldB x) .outOfBounds
  | storeRegs (x : RegIdx) (h : 4096 ≤ s.i.toNat + x.val) : FaultsWith s (.storeRegs x) .outOfBounds
  | loadRegs (x : RegIdx) (h : 4096 ≤ s.i.toNat + x.val) : FaultsWith s (.loadRegs x) .outOfBounds

section faults
variable {i : Instr} {s t : State} {f : Fault}

theorem FaultsWith.exec_eq (h : FaultsWith s i f) : exec i s = .fault f := by
  cases h with
  | ret h =>
    rcases s.pop_cases with ⟨k, j, hk, -⟩ | ⟨-, hp⟩
    · omega
    · exact exec_ret_of_pop_eq_none hp
  | call nnn h =>
    rcases s.push_cases (s.pc + 2) with ⟨h16, -⟩ | ⟨-, hp⟩
    · omega
    · exact exec_call_of_push_eq_none hp
  | drw x y n h => exact fault_of_not_inMemory h _
  | ldB x h => exact fault_of_not_inMemory (by omega) _
  | storeRegs x h | loadRegs x h => exact fault_of_not_inMemory (by omega) _

/-- An instruction that no row lists in this state completes. -/
theorem exec_completes (h : ∀ f, ¬ FaultsWith s i f) : ∃ t, exec i s = .next t := by
  cases i
  case ret =>
    rcases s.pop_cases with ⟨k, j, -, -, hp⟩ | ⟨h0, -⟩
    · exact ⟨_, exec_ret_eq_next.2 ⟨_, _, hp, rfl⟩⟩
    · exact absurd (.ret h0) (h _)
  case call nnn =>
    rcases s.push_cases (s.pc + 2) with ⟨_, hp⟩ | ⟨h16, -⟩
    · exact ⟨_, exec_call_eq_next.2 ⟨_, hp, rfl⟩⟩
    · exact absurd (.call nnn h16) (h _)
  case drw x y n => exact exec_drw_completes (not_lt.1 fun hout => h _ (.drw x y n hout))
  case ldB x =>
    have hin := not_le.1 fun hout => h _ (.ldB x hout)
    exact ⟨_, exec_ldB_eq_next.2 ⟨hin, rfl⟩⟩
  case storeRegs x =>
    have hin := not_le.1 fun hout => h _ (.storeRegs x hout)
    exact ⟨_, exec_storeRegs_eq_next.2 ⟨hin, rfl⟩⟩
  case loadRegs x =>
    have hin := not_le.1 fun hout => h _ (.loadRegs x hout)
    exact ⟨_, exec_loadRegs_eq_next.2 ⟨hin, rfl⟩⟩
  case ldVxK x =>
    cases hkey : s.firstKey with
    | none => exact ⟨_, exec_ldVxK_eq_next.2 (.inr ⟨hkey, rfl⟩)⟩
    | some k => exact ⟨_, exec_ldVxK_eq_next.2 (.inl ⟨k, hkey, rfl⟩)⟩
  -- The others have no branch but a skip's condition, and end in `complete` or in HALT's outputs.
  all_goals exact ⟨_, rfl⟩

theorem exec_eq_fault_iff : exec i s = .fault f ↔ FaultsWith s i f := by
  refine ⟨fun h => ?_, FaultsWith.exec_eq⟩
  by_contra hnot
  have hnone : ∀ g, ¬ FaultsWith s i g := by
    intro g hg
    cases h.symm.trans hg.exec_eq
    exact hnot hg
  obtain ⟨t, ht⟩ := exec_completes hnone
  cases h.symm.trans ht

theorem faultsWith_stackFault_iff : FaultsWith s i .stackFault ↔
    (i = .ret ∧ s.sp.val = 0) ∨ (∃ nnn, i = .call nnn ∧ s.sp.val = 16) := by
  constructor
  · rintro (h | ⟨nnn, h⟩)
    · exact .inl ⟨rfl, h⟩
    · exact .inr ⟨nnn, rfl, h⟩
  · rintro (⟨rfl, h⟩ | ⟨nnn, rfl, h⟩)
    · exact .ret h
    · exact .call nnn h

theorem faultsWith_outOfBounds_iff : FaultsWith s i .outOfBounds ↔
    (∃ x y n, i = .drw x y n ∧ 4096 < s.i.toNat + n.toNat) ∨ (∃ x, i = .ldB x ∧ 4096 ≤ s.i.toNat + 2) ∨
      (∃ x, i = .storeRegs x ∧ 4096 ≤ s.i.toNat + x.val) ∨ (∃ x, i = .loadRegs x ∧ 4096 ≤ s.i.toNat + x.val) := by
  constructor
  · intro h
    cases h with
    | drw x y n h => exact .inl ⟨x, y, n, rfl, h⟩
    | ldB x h => exact .inr (.inl ⟨x, rfl, h⟩)
    | storeRegs x h => exact .inr (.inr (.inl ⟨x, rfl, h⟩))
    | loadRegs x h => exact .inr (.inr (.inr ⟨x, rfl, h⟩))
  · rintro (⟨x, y, n, rfl, h⟩ | ⟨x, rfl, h⟩ | ⟨x, rfl, h⟩ | ⟨x, rfl, h⟩)
    · exact .drw x y n h
    · exact .ldB x h
    · exact .storeRegs x h
    · exact .loadRegs x h

end faults

/-- Settles O41: the faults are the rows of `FaultsWith`, and under none of them the instruction completes. -/
theorem instructionsStopExactlyWhenListed : Obligations.InstructionsStopExactlyWhenListed := by
  intro i s
  refine ⟨exec_eq_fault_iff.trans faultsWith_stackFault_iff, exec_eq_fault_iff.trans faultsWith_outOfBounds_iff, ?_⟩
  constructor
  · rintro ⟨t, h⟩
    simp [h]
  · rintro ⟨hstack, hbounds⟩
    refine exec_completes fun f hf => ?_
    cases f with
    | outOfBounds => exact hbounds hf.exec_eq
    | stackFault => exact hstack hf.exec_eq

/-! ## After a fault -/

theorem transact_step_of_fault {s : State} {f : Fault} (h : step s = .fault f) :
    transact .step s = .next (s.emit f.code false, .stepped f.code false) := by
  rw [transact, stepTransaction, h]

/-- Settles O42: the record of the outputs is the one thing a faulting step writes. -/
theorem faultingStepLeavesNoTrace : Obligations.FaultingStepLeavesNoTrace := by
  intro s f h
  exact ⟨_, transact_step_of_fault h, s.returned_emit _ _, (Frame.refl (· = .out) s).emit rfl _ _⟩

/-- The locations a key poll, a tick and the report of a fault write. -/
def isPolledOrOutput (l : Loc) : Prop := (∃ k, l = .key k) ∨ l = .dt ∨ l = .st ∨ l = .out

section repeats
variable {i : Instr} {s t : State} {f : Fault}

/-- No row of R221 to R223 reads more than SP and I. -/
theorem FaultsWith.congr (h : FaultsWith s i f) (hsp : t.sp = s.sp) (hi : t.i = s.i) : FaultsWith t i f := by
  cases h with
  | ret h => exact .ret (hsp ▸ h)
  | call nnn h => exact .call nnn (hsp ▸ h)
  | drw x y n h => exact .drw x y n (hi ▸ h)
  | ldB x h => exact .ldB x (hi ▸ h)
  | storeRegs x h => exact .storeRegs x (hi ▸ h)
  | loadRegs x h => exact .loadRegs x (hi ▸ h)

/-- A fault depends on PC and memory, by way of the fetch, and on SP and I: none of them polled or an output. -/
theorem step_fault_of_frame (h : step s = .fault f) (hst : Frame isPolledOrOutput s t) : step t = .fault f := by
  have hpc : t.pc = s.pc := hst .pc (by simp [isPolledOrOutput])
  have hmem (a : Nat) : t.readByte a = s.readByte a := hst (.mem a) (by simp [isPolledOrOutput])
  have hfetch : t.fetch = s.fetch := State.fetch_congr hpc hmem
  rcases step_cases s with ⟨w, hw, -, hs⟩ | ⟨hw, -, hs⟩
  · have hf : FaultsWith s (decode w) f := exec_eq_fault_iff.1 (hs ▸ h)
    rw [step_of_fetch (hfetch.trans hw)]
    exact (hf.congr (hst .sp (by simp [isPolledOrOutput])) (hst .i (by simp [isPolledOrOutput]))).exec_eq
  · rw [step, hfetch, hw]
    exact hs.symm.trans h

theorem transact_poll_frame (h : step s = .fault f) {tx : Transaction}
    (htx : tx = .step ∨ tx = .tick ∨ (∃ k, tx = .setKeys k) ∨ (∃ c, tx = .fbRead c)) :
    ∃ u r, transact tx s = .next (u, r) ∧ Frame isPolledOrOutput s u := by
  rcases htx with rfl | rfl | ⟨k, rfl⟩ | ⟨c, rfl⟩
  · exact ⟨_, _, transact_step_of_fault h, (Frame.refl _ s).emit (.inr (.inr (.inr rfl))) _ _⟩
  · exact ⟨_, _, rfl, (tick_frame s).mono fun _ hl => .inr (hl.imp_right .inl)⟩
  · obtain ⟨u, hu, -, hframe⟩ := setKeysReplacesAllFlags k s
    exact ⟨u, _, hu, hframe.mono fun _ => .inl⟩
  · exact ⟨_, _, rfl, Frame.refl _ s⟩

end repeats

/-- Settles O43, by induction on the transactions: none of them writes what the fault depends on. -/
theorem faultRepeatsWhateverTheHostPolls : Obligations.FaultRepeatsWhateverTheHostPolls := by
  intro s f ts h hts
  induction ts generalizing s with
  | nil => exact ⟨s, rfl, h⟩
  | cons tx ts ih =>
    obtain ⟨htx, hrest⟩ := List.forall_mem_cons.1 hts
    obtain ⟨u, r, hu, hframe⟩ := transact_poll_frame h htx
    obtain ⟨t, ht, hfault⟩ := ih u (step_fault_of_frame h hframe) hrest
    exact ⟨t, by rw [transactAll, hu]; exact ht, hfault⟩

/-! ## The timers -/

/-- A tick takes one from a timer and stops at 0, as subtraction of natural numbers does. -/
theorem tickTimer_toNat (b : Byte) : (tickTimer b).toNat = b.toNat - 1 := by
  rw [tickTimer]
  split
  · bv_omega
  · omega

/-- Settles O52: each timer goes through `tickTimer`, and nothing else is written. -/
theorem tickLowersNonzeroTimersByOne : Obligations.TickLowersNonzeroTimersByOne := by
  intro s
  have hval (b : Byte) : (tickTimer b).toNat = if b.toNat > 0 then b.toNat - 1 else b.toNat := by
    rw [tickTimer_toNat]
    split
    · rfl
    · omega
  exact ⟨tick s, rfl, hval s.dt, hval s.st, tick_frame s⟩

/-- Settles O53, by induction on the ticks: max(0, max(0, v - 1) - n) is max(0, v - (n + 1)). -/
theorem timersCountDownToZero : Obligations.TimersCountDownToZero := by
  intro n s
  induction n generalizing s with
  | zero => exact ⟨s, rfl, by omega, by omega, Frame.refl _ s⟩
  | succ n ih =>
    obtain ⟨t, ht, hdt, hst, hframe⟩ := ih (tick s)
    have hdt1 : (tick s).dt.toNat = s.dt.toNat - 1 := tickTimer_toNat s.dt
    have hst1 : (tick s).st.toNat = s.st.toNat - 1 := tickTimer_toNat s.st
    exact ⟨t, ht, by omega, by omega, (tick_frame s).trans hframe⟩

end Sys2Proof.Machine
end

section
/-! Reset and load (spec/70_reset_and_hazards.md): the overlay a load accepts, where it places a program, and the state
a program is launched in. -/

namespace Sys2Proof.Machine

/-! ## The overlay -/

/-- Settles O57: the address is put together as a word of memory is. -/
theorem overlayRecordAddressIsBigEndian : Obligations.OverlayRecordAddressIsBigEndian := by
  intro b0 b1 b2 b3 b4
  exact ⟨wordOfBytes_toNat b0 b1, rfl, rfl, rfl⟩

theorem acceptOverlay_of_two_le {recs : List OverlayRec} (h : 2 ≤ recs.length) : acceptOverlay (some recs) = recs := by
  match recs with
  | [] | [_] => simp at h
  | _ :: _ :: _ => rfl

theorem acceptOverlay_of_lt_two {recs : List OverlayRec} (h : recs.length < 2) : acceptOverlay (some recs) = [] := by
  match recs with
  | [] | [_] => rfl
  | _ :: _ :: _ => simp at h

/-! ## A successful load -/

/-- The locations the load of a program of `n` bytes writes (R252), the model's own record of it among them. -/
def isWrittenByLoad (n : Nat) (l : Loc) : Prop :=
  (∃ k, k < n ∧ l = .mem (progBase + k)) ∨ l = .pc ∨ l = .ov ∨ l = .loaded

section load
variable {s : State} {bytes : List Byte} (overlay : Option (List OverlayRec))

/-- The largest program the loader accepts ends where memory does (R252). -/
theorem program_fits (hlen : bytes.length ≤ progMax) : progBase + bytes.length ≤ 4096 := by
  simp only [progBase, progMax] at *
  omega

theorem loadProgram_readByte (hm : s.mem.wf s.params = true) (hlen : bytes.length ≤ progMax) (k : Nat)
    (hk : k < bytes.length) : (loadProgram bytes overlay s).readByte (progBase + k) = bytes[k] := by
  have hstored := s.storeBytes_readByte hm progBase bytes (program_fits hlen) (progBase + k)
  rw [dif_pos (by omega)] at hstored
  exact hstored.trans (by simp)

theorem loadProgram_frame (hm : s.mem.wf s.params = true) (hlen : bytes.length ≤ progMax) :
    Frame (isWrittenByLoad bytes.length) s (loadProgram bytes overlay s) := by
  have hbytes : ∀ q, progBase ≤ q → q < progBase + bytes.length → isWrittenByLoad bytes.length (.mem q) :=
    fun q hlo hhi => .inl ⟨q - progBase, by omega, by rw [Nat.add_sub_cancel' hlo]⟩
  have hstored := (Frame.refl _ s).storeBytes_block hm (program_fits hlen) hbytes
  refine (hstored.writePc (.inr (.inl rfl)) 0x200).trans fun l hl => ?_
  cases l with
  | ov | loaded => simp [isWrittenByLoad] at hl
  | _ => rfl

end load

/-- Settles O55: the three clauses are the three cases of `loadTransaction_cases`. -/
theorem loadPlacesTheProgramOrChangesNothing : Obligations.LoadPlacesTheProgramOrChangesNothing := by
  intro bytes overlay s hm
  have hmax : progMax = 0xE00 := rfl
  rcases loadTransaction_cases bytes overlay s with ⟨hl, h⟩ | ⟨hl, hb, h⟩ | ⟨hl, hb, h⟩
  · exact ⟨by simp [hl], by simp [hl], fun _ => h⟩
  · exact ⟨fun _ _ => h, fun _ _ => by omega, by simp [hl]⟩
  · refine ⟨fun _ _ => by omega, fun _ _ => ⟨_, h, loadProgram_readByte overlay hm hb, rfl, ?_, ?_, ?_, rfl,
      loadProgram_frame overlay hm hb⟩, by simp [hl]⟩
    · rintro recs rfl h2
      exact acceptOverlay_of_two_le h2
    · rintro recs rfl h2
      exact acceptOverlay_of_lt_two h2
    · rintro rfl
      rfl

/-! ## The launch state (R256) -/

/-- Settles O56: what the load and the key poll leave alone is as reset left it. -/
theorem launchStateAfterResetAndLoad : Obligations.LaunchStateAfterResetAndLoad := by
  intro p keys bytes overlay hlen
  obtain ⟨hv, hi, -, hsp, hstack, hdt, hst, -, hfb, -, hfont, hzero⟩ := resetLeavesTheListedValues p
  obtain ⟨t, hload, hbytes, hpc, hov, hfew, hnone, -, hframe⟩ :=
    (loadPlacesTheProgramOrChangesNothing bytes overlay (setKeys keys (State.resetWith p)) (Memory.reset_wf p)).2.1
      rfl hlen
  have hmem (a : Nat) (ha : a < 0x200 ∨ 0x200 + bytes.length ≤ a) : t.readByte a = (State.resetWith p).readByte a := by
    refine hframe (.mem a) ?_
    simp only [Loc.mem.injEq, reduceCtorEq, or_false, not_exists, not_and]
    omega
  have hrun : transactAll [.setKeys keys, .load bytes overlay] (State.resetWith p) = .next t := by
    simp only [transactAll, transact] at hload ⊢
    rw [hload]
  refine ⟨t, hrun, fun a h => (hmem a (by omega)).trans (hfont a h),
    fun a hlo hhi => (hmem a (.inl hhi)).trans (hzero a hlo), hbytes,
    fun a ha => (hmem a (.inr ha)).trans (hzero a (by omega)), hpc,
    fun x => (hframe (.v x) (by simp)).trans (hv x), (hframe .i (by simp)).trans hi, (hframe .sp (by simp)).trans hsp,
    fun k => (hframe (.stack k) (by simp)).trans (hstack k), (hframe .dt (by simp)).trans hdt,
    (hframe .st (by simp)).trans hst, fun c => (hframe (.fb c) (by simp)).trans (hfb c), hov, hfew, hnone, ?_⟩
  exact Vector.ext fun k hk => hframe (.key ⟨k, hk⟩) (by simp)

end Sys2Proof.Machine
end
